-- ==== Sys2Proof/Word.lean ====
section
/-! DEFINITION. The value widths of the machine (spec 00_scope.md R5, section 5.1). Every value is an unsigned
integer; wrapping is the wrapping of `BitVec`. -/

namespace Sys2Proof

/-- `u8`: a general register, a memory byte, a timer counter, an 8-bit immediate (R5 `REG_BITS`, `TIMER_BITS`). -/
abbrev Byte := BitVec 8

/-- `u16`: an instruction word, the program counter, the index register, a return address (R5). -/
abbrev Word := BitVec 16

/-- A 12-bit address field `nnn` (30_encoding.md R51). -/
abbrev Addr := BitVec 12

/-- A 4-bit field: the opcode nibble, a selector, or the sprite height `n` (30_encoding.md R51). -/
abbrev Nibble := BitVec 4

/-- A general register's number, `V0` to `VF` (10_state.md R10: "indexed 0x0-0xF"). -/
abbrev Reg := Fin 16

/-- A key identifier, `0x0` to `0xF` (10_state.md R20). -/
abbrev Key := Fin 16

end Sys2Proof
end

