-- ==== Sys2Proof/Syntax.lean ====
section
/-! DEFINITION. The instruction set: one constructor per row of spec/opcode_table.json (30_encoding.md R55), in the
table's order. Operands have exactly the widths of their fields (R51, R53), so an operand out of its field's range
cannot be written down. A word that matches no row is no instruction: decoding rejects it by name. -/

namespace Sys2Proof

/-- The 34 instructions of 30_encoding.md R55. -/
inductive Instr where
  /-- `00E0` CLS (R120) -/
  | cls
  /-- `00EE` RET (R73) -/
  | ret
  /-- `1nnn` JP nnn (R71) -/
  | jp (nnn : Addr)
  /-- `2nnn` CALL nnn (R72) -/
  | call (nnn : Addr)
  /-- `3xnn` SE Vx, nn (R75) -/
  | seImm (x : Reg) (nn : Byte)
  /-- `4xnn` SNE Vx, nn (R76) -/
  | sneImm (x : Reg) (nn : Byte)
  /-- `5xy0` SE Vx, Vy (R77) -/
  | seReg (x y : Reg)
  /-- `6xnn` LD Vx, nn (R91) -/
  | ldImm (x : Reg) (nn : Byte)
  /-- `7xnn` ADD Vx, nn (R92) -/
  | addImm (x : Reg) (nn : Byte)
  /-- `8xy0` LD Vx, Vy (R93) -/
  | ldReg (x y : Reg)
  /-- `8xy1` OR Vx, Vy (R94) -/
  | orReg (x y : Reg)
  /-- `8xy2` AND Vx, Vy (R95) -/
  | andReg (x y : Reg)
  /-- `8xy3` XOR Vx, Vy (R96) -/
  | xorReg (x y : Reg)
  /-- `8xy4` ADD Vx, Vy (R97) -/
  | addReg (x y : Reg)
  /-- `8xy5` SUB Vx, Vy (R98) -/
  | subReg (x y : Reg)
  /-- `8xy6` SHR Vx (R99); `y` is decoded and not used (R56) -/
  | shr (x y : Reg)
  /-- `8xy7` SUBN Vx, Vy (R100) -/
  | subn (x y : Reg)
  /-- `8xyE` SHL Vx (R101); `y` is decoded and not used (R56) -/
  | shl (x y : Reg)
  /-- `9xy0` SNE Vx, Vy (R78) -/
  | sneReg (x y : Reg)
  /-- `Annn` LD I, nnn (R110) -/
  | ldI (nnn : Addr)
  /-- `Bnnn` JP V0, nnn (R74) -/
  | jpV0 (nnn : Addr)
  /-- `Cxnn` RND Vx, nn (R104) -/
  | rnd (x : Reg) (nn : Byte)
  /-- `Dxyn` DRW Vx, Vy, n (R121) -/
  | drw (x y : Reg) (n : Nibble)
  /-- `Ex9E` SKP Vx (R130) -/
  | skp (x : Reg)
  /-- `ExA1` SKNP Vx (R131) -/
  | sknp (x : Reg)
  /-- `Fx07` LD Vx, DT (R135) -/
  | ldVxDT (x : Reg)
  /-- `Fx0A` LD Vx, K (R132) -/
  | ldVxK (x : Reg)
  /-- `Fx15` LD DT, Vx (R136) -/
  | ldDTVx (x : Reg)
  /-- `Fx18` LD ST, Vx (R137) -/
  | ldSTVx (x : Reg)
  /-- `Fx1E` ADD I, Vx (R111) -/
  | addI (x : Reg)
  /-- `Fx29` LD F, Vx (R112) -/
  | ldF (x : Reg)
  /-- `Fx33` LD B, Vx (R113) -/
  | ldB (x : Reg)
  /-- `Fx55` LD [I], Vx (R114) -/
  | storeRegs (x : Reg)
  /-- `Fx65` LD Vx, [I] (R115) -/
  | loadRegs (x : Reg)
deriving DecidableEq, Repr

end Sys2Proof
end

