-- ==== Sys2Proof/WellFormed.lean ====
section
/-! DEFINITION. What is well formed: an instruction WORD matches a row of the opcode table (30_encoding.md R55,
R58), and an operand NUMERAL fits its field (R60: "an unsigned numeral ... that must fit in 8, 12 or 4 bits"). A term
of `Instr` carries operands of exactly the fields' widths, so it is well formed by its type; what can be ill formed
is the word and the numeral, and these checks refuse it. -/

namespace Sys2Proof

/-- One row of the opcode table: `w` is the instruction of the row when `w AND mask = pattern` (R55). -/
structure OpcodeRow where
  /-- the mnemonic as spec/opcode_table.json spells it -/
  mnemonic : String
  /-- the row's `mask` -/
  mask : Word
  /-- the row's `match` -/
  pattern : Word
deriving DecidableEq, Repr

/-- `w AND mask = match` (R55). -/
def OpcodeRow.admits (row : OpcodeRow) (w : Word) : Bool :=
  w &&& row.mask == row.pattern

/-- The rows of categories `0x0` to `0x7` (R55 rows 1 to 9). -/
def opcodeRowsLow : List OpcodeRow :=
  [ ⟨"CLS", 0xFFFF, 0x00E0⟩, ⟨"RET", 0xFFFF, 0x00EE⟩, ⟨"JP_nnn", 0xF000, 0x1000⟩,
    ⟨"CALL_nnn", 0xF000, 0x2000⟩, ⟨"SE_Vx__nn", 0xF000, 0x3000⟩, ⟨"SNE_Vx__nn", 0xF000, 0x4000⟩,
    ⟨"SE_Vx__Vy", 0xF00F, 0x5000⟩, ⟨"LD_Vx__nn", 0xF000, 0x6000⟩, ⟨"ADD_Vx__nn", 0xF000, 0x7000⟩ ]

/-- The rows of category `0x8` (R55 rows 10 to 18). -/
def opcodeRowsAlu : List OpcodeRow :=
  [ ⟨"LD_Vx__Vy", 0xF00F, 0x8000⟩, ⟨"OR_Vx__Vy", 0xF00F, 0x8001⟩, ⟨"AND_Vx__Vy", 0xF00F, 0x8002⟩,
    ⟨"XOR_Vx__Vy", 0xF00F, 0x8003⟩, ⟨"ADD_Vx__Vy", 0xF00F, 0x8004⟩, ⟨"SUB_Vx__Vy", 0xF00F, 0x8005⟩,
    ⟨"SHR_Vx", 0xF00F, 0x8006⟩, ⟨"SUBN_Vx__Vy", 0xF00F, 0x8007⟩, ⟨"SHL_Vx", 0xF00F, 0x800E⟩ ]

/-- The rows of categories `0x9` to `0xE` (R55 rows 19 to 25). -/
def opcodeRowsHigh : List OpcodeRow :=
  [ ⟨"SNE_Vx__Vy", 0xF00F, 0x9000⟩, ⟨"LD_I__nnn", 0xF000, 0xA000⟩, ⟨"JP_V0__nnn", 0xF000, 0xB000⟩,
    ⟨"RND_Vx__nn", 0xF000, 0xC000⟩, ⟨"DRW_Vx__Vy__n", 0xF000, 0xD000⟩, ⟨"SKP_Vx", 0xF0FF, 0xE09E⟩,
    ⟨"SKNP_Vx", 0xF0FF, 0xE0A1⟩ ]

/-- The rows of category `0xF` (R55 rows 26 to 34). -/
def opcodeRowsMisc : List OpcodeRow :=
  [ ⟨"LD_Vx__DT", 0xF0FF, 0xF007⟩, ⟨"LD_Vx__K", 0xF0FF, 0xF00A⟩, ⟨"LD_DT__Vx", 0xF0FF, 0xF015⟩,
    ⟨"LD_ST__Vx", 0xF0FF, 0xF018⟩, ⟨"ADD_I__Vx", 0xF0FF, 0xF01E⟩, ⟨"LD_F__Vx", 0xF0FF, 0xF029⟩,
    ⟨"LD_B__Vx", 0xF0FF, 0xF033⟩, ⟨"LD__I___Vx", 0xF0FF, 0xF055⟩, ⟨"LD_Vx___I", 0xF0FF, 0xF065⟩ ]

/-- The opcode table, all 34 rows in the spec's order (R55). -/
def opcodeRows : List OpcodeRow :=
  opcodeRowsLow ++ opcodeRowsAlu ++ opcodeRowsHigh ++ opcodeRowsMisc

/-- A word is well formed when some row of the opcode table admits it; every other word is unrecognised (R58). -/
def WellFormed.word (w : Word) : Bool :=
  opcodeRows.any (·.admits w)

/-- The row of an instruction, by its constructor (R55). -/
def Instr.row : Instr → OpcodeRow
  | .cls => ⟨"CLS", 0xFFFF, 0x00E0⟩
  | .ret => ⟨"RET", 0xFFFF, 0x00EE⟩
  | .jp _ => ⟨"JP_nnn", 0xF000, 0x1000⟩
  | .call _ => ⟨"CALL_nnn", 0xF000, 0x2000⟩
  | .seImm _ _ => ⟨"SE_Vx__nn", 0xF000, 0x3000⟩
  | .sneImm _ _ => ⟨"SNE_Vx__nn", 0xF000, 0x4000⟩
  | .seReg _ _ => ⟨"SE_Vx__Vy", 0xF00F, 0x5000⟩
  | .ldImm _ _ => ⟨"LD_Vx__nn", 0xF000, 0x6000⟩
  | .addImm _ _ => ⟨"ADD_Vx__nn", 0xF000, 0x7000⟩
  | .ldReg _ _ => ⟨"LD_Vx__Vy", 0xF00F, 0x8000⟩
  | .orReg _ _ => ⟨"OR_Vx__Vy", 0xF00F, 0x8001⟩
  | .andReg _ _ => ⟨"AND_Vx__Vy", 0xF00F, 0x8002⟩
  | .xorReg _ _ => ⟨"XOR_Vx__Vy", 0xF00F, 0x8003⟩
  | .addReg _ _ => ⟨"ADD_Vx__Vy", 0xF00F, 0x8004⟩
  | .subReg _ _ => ⟨"SUB_Vx__Vy", 0xF00F, 0x8005⟩
  | .shr _ _ => ⟨"SHR_Vx", 0xF00F, 0x8006⟩
  | .subn _ _ => ⟨"SUBN_Vx__Vy", 0xF00F, 0x8007⟩
  | .shl _ _ => ⟨"SHL_Vx", 0xF00F, 0x800E⟩
  | .sneReg _ _ => ⟨"SNE_Vx__Vy", 0xF00F, 0x9000⟩
  | .ldI _ => ⟨"LD_I__nnn", 0xF000, 0xA000⟩
  | .jpV0 _ => ⟨"JP_V0__nnn", 0xF000, 0xB000⟩
  | .rnd _ _ => ⟨"RND_Vx__nn", 0xF000, 0xC000⟩
  | .drw _ _ _ => ⟨"DRW_Vx__Vy__n", 0xF000, 0xD000⟩
  | .skp _ => ⟨"SKP_Vx", 0xF0FF, 0xE09E⟩
  | .sknp _ => ⟨"SKNP_Vx", 0xF0FF, 0xE0A1⟩
  | .ldVxDT _ => ⟨"LD_Vx__DT", 0xF0FF, 0xF007⟩
  | .ldVxK _ => ⟨"LD_Vx__K", 0xF0FF, 0xF00A⟩
  | .ldDTVx _ => ⟨"LD_DT__Vx", 0xF0FF, 0xF015⟩
  | .ldSTVx _ => ⟨"LD_ST__Vx", 0xF0FF, 0xF018⟩
  | .addI _ => ⟨"ADD_I__Vx", 0xF0FF, 0xF01E⟩
  | .ldF _ => ⟨"LD_F__Vx", 0xF0FF, 0xF029⟩
  | .ldB _ => ⟨"LD_B__Vx", 0xF0FF, 0xF033⟩
  | .storeRegs _ => ⟨"LD__I___Vx", 0xF0FF, 0xF055⟩
  | .loadRegs _ => ⟨"LD_Vx___I", 0xF0FF, 0xF065⟩

/-- A numeral as a register number: one hexadecimal digit (R60). -/
def WellFormed.reg? (k : Nat) : Option Reg :=
  if h : k < 16 then some ⟨k, h⟩ else none

/-- A numeral as an operand of a field of `width` bits, refused when it does not fit (R60). -/
def WellFormed.numeral? (width k : Nat) : Option (BitVec width) :=
  if k < 2 ^ width then some (BitVec.ofNat width k) else none

end Sys2Proof
end

