-- ==== Sys2Proof/Decode.lean ====
section
/-! DEFINITION. Decoding of 16-bit words and of bytes, total, with every rejection named (30_encoding.md R50 to R59),
and the encoder, written from the same formats (R52). -/

namespace Sys2Proof

/-- Why bytes are no instruction. -/
inductive DecodeError where
  /-- fewer than the two bytes of an instruction word are left (R50) -/
  | truncated
  /-- the word matches no row of the opcode table (R58) -/
  | unrecognized (w : Word)
deriving DecidableEq, Repr

/-- `op = w[15:12]`, the opcode nibble (R51). -/
def opField (w : Word) : Nibble := w.extractLsb' 12 4

/-- `x = w[11:8]`, the first register (R51). -/
def xField (w : Word) : Reg := (w.extractLsb' 8 4).toFin

/-- `y = w[7:4]`, the second register (R51). -/
def yField (w : Word) : Reg := (w.extractLsb' 4 4).toFin

/-- `n = w[3:0]`, the 4-bit immediate or selector (R51). -/
def nField (w : Word) : Nibble := w.extractLsb' 0 4

/-- `nn = w[7:0]`, the 8-bit immediate or selector (R51). -/
def nnField (w : Word) : Byte := w.extractLsb' 0 8

/-- `nnn = w[11:0]`, the 12-bit address (R51). -/
def nnnField (w : Word) : Addr := w.extractLsb' 0 12

/-- The instruction word of two bytes, the first the high byte (20_memory.md R34). -/
def wordOfBytes (hi lo : Byte) : Word := hi ++ lo

/-- The high byte of a word, stored first (20_memory.md R34). -/
def highByte (w : Word) : Byte := w.extractLsb' 8 8

/-- The low byte of a word, stored second (20_memory.md R34). -/
def lowByte (w : Word) : Byte := w.extractLsb' 0 8

/-- Category `0x0`: the selector is the full low 12 bits (R54). -/
def decode0 (w : Word) : Except DecodeError Instr :=
  match nnnField w with
  | 0x0E0#12 => .ok .cls
  | 0x0EE#12 => .ok .ret
  | _ => .error (.unrecognized w)

/-- Category `0x8`: the selector is the low nibble (R54). -/
def decode8 (w : Word) : Except DecodeError Instr :=
  match nField w with
  | 0x0#4 => .ok (.ldReg (xField w) (yField w))
  | 0x1#4 => .ok (.orReg (xField w) (yField w))
  | 0x2#4 => .ok (.andReg (xField w) (yField w))
  | 0x3#4 => .ok (.xorReg (xField w) (yField w))
  | 0x4#4 => .ok (.addReg (xField w) (yField w))
  | 0x5#4 => .ok (.subReg (xField w) (yField w))
  | 0x6#4 => .ok (.shr (xField w) (yField w))
  | 0x7#4 => .ok (.subn (xField w) (yField w))
  | 0xE#4 => .ok (.shl (xField w) (yField w))
  | _ => .error (.unrecognized w)

/-- Category `0xE`: the selector is the low byte (R54). -/
def decodeE (w : Word) : Except DecodeError Instr :=
  match nnField w with
  | 0x9E#8 => .ok (.skp (xField w))
  | 0xA1#8 => .ok (.sknp (xField w))
  | _ => .error (.unrecognized w)

/-- Category `0xF`: the selector is the low byte (R54). -/
def decodeF (w : Word) : Except DecodeError Instr :=
  match nnField w with
  | 0x07#8 => .ok (.ldVxDT (xField w))
  | 0x0A#8 => .ok (.ldVxK (xField w))
  | 0x15#8 => .ok (.ldDTVx (xField w))
  | 0x18#8 => .ok (.ldSTVx (xField w))
  | 0x1E#8 => .ok (.addI (xField w))
  | 0x29#8 => .ok (.ldF (xField w))
  | 0x33#8 => .ok (.ldB (xField w))
  | 0x55#8 => .ok (.storeRegs (xField w))
  | 0x65#8 => .ok (.loadRegs (xField w))
  | _ => .error (.unrecognized w)

/-- The instruction of a word: the opcode nibble first, then the category's selector (R54). -/
def decode (w : Word) : Except DecodeError Instr :=
  match opField w with
  | 0x0#4 => decode0 w
  | 0x1#4 => .ok (.jp (nnnField w))
  | 0x2#4 => .ok (.call (nnnField w))
  | 0x3#4 => .ok (.seImm (xField w) (nnField w))
  | 0x4#4 => .ok (.sneImm (xField w) (nnField w))
  | 0x5#4 => if nField w = 0x0#4 then .ok (.seReg (xField w) (yField w)) else .error (.unrecognized w)
  | 0x6#4 => .ok (.ldImm (xField w) (nnField w))
  | 0x7#4 => .ok (.addImm (xField w) (nnField w))
  | 0x8#4 => decode8 w
  | 0x9#4 => if nField w = 0x0#4 then .ok (.sneReg (xField w) (yField w)) else .error (.unrecognized w)
  | 0xA#4 => .ok (.ldI (nnnField w))
  | 0xB#4 => .ok (.jpV0 (nnnField w))
  | 0xC#4 => .ok (.rnd (xField w) (nnField w))
  | 0xD#4 => .ok (.drw (xField w) (yField w) (nField w))
  | 0xE#4 => decodeE w
  | _ => decodeF w

/-- Decoding from a byte sequence: the instruction and the bytes after it, or the reason there is none. Every
instruction is two bytes (R50). -/
def decodeBytes : List Byte → Except DecodeError (Instr × List Byte)
  | hi :: lo :: rest =>
    match decode (wordOfBytes hi lo) with
    | .ok i => .ok (i, rest)
    | .error e => .error e
  | _ => .error .truncated

/-- Format `A`: opcode nibble and 12-bit address (R52). -/
def formatA (op : Nibble) (nnn : Addr) : Word := op ++ nnn

/-- Formats `XI` and `XS`: opcode nibble, register, 8-bit immediate or selector (R52). -/
def formatXI (op : Nibble) (x : Reg) (nn : Byte) : Word := op ++ (BitVec.ofFin x : Nibble) ++ nn

/-- Formats `XY` and `XYN`: opcode nibble, two registers, 4-bit selector or immediate (R52). -/
def formatXY (op : Nibble) (x y : Reg) (n : Nibble) : Word :=
  op ++ (BitVec.ofFin x : Nibble) ++ (BitVec.ofFin y : Nibble) ++ n

/-- The word of an instruction (R52, R55). -/
def encode : Instr → Word
  | .cls => 0x00E0#16
  | .ret => 0x00EE#16
  | .jp nnn => formatA 0x1 nnn
  | .call nnn => formatA 0x2 nnn
  | .seImm x nn => formatXI 0x3 x nn
  | .sneImm x nn => formatXI 0x4 x nn
  | .seReg x y => formatXY 0x5 x y 0x0
  | .ldImm x nn => formatXI 0x6 x nn
  | .addImm x nn => formatXI 0x7 x nn
  | .ldReg x y => formatXY 0x8 x y 0x0
  | .orReg x y => formatXY 0x8 x y 0x1
  | .andReg x y => formatXY 0x8 x y 0x2
  | .xorReg x y => formatXY 0x8 x y 0x3
  | .addReg x y => formatXY 0x8 x y 0x4
  | .subReg x y => formatXY 0x8 x y 0x5
  | .shr x y => formatXY 0x8 x y 0x6
  | .subn x y => formatXY 0x8 x y 0x7
  | .shl x y => formatXY 0x8 x y 0xE
  | .sneReg x y => formatXY 0x9 x y 0x0
  | .ldI nnn => formatA 0xA nnn
  | .jpV0 nnn => formatA 0xB nnn
  | .rnd x nn => formatXI 0xC x nn
  | .drw x y n => formatXY 0xD x y n
  | .skp x => formatXI 0xE x 0x9E
  | .sknp x => formatXI 0xE x 0xA1
  | .ldVxDT x => formatXI 0xF x 0x07
  | .ldVxK x => formatXI 0xF x 0x0A
  | .ldDTVx x => formatXI 0xF x 0x15
  | .ldSTVx x => formatXI 0xF x 0x18
  | .addI x => formatXI 0xF x 0x1E
  | .ldF x => formatXI 0xF x 0x29
  | .ldB x => formatXI 0xF x 0x33
  | .storeRegs x => formatXI 0xF x 0x55
  | .loadRegs x => formatXI 0xF x 0x65

/-- The bytes of an instruction as memory holds them, high byte first (20_memory.md R34, 30_encoding.md R61). -/
def encodeBytes (i : Instr) : List Byte := [highByte (encode i), lowByte (encode i)]

/-- Of a number that holds `nbits` bits of an instruction, bit 0 the least significant of its first word: that first
word, with every bit above `nbits` zero. Every instruction is one 16-bit word (R50), so there is no later word. -/
def tableWord (nbits w : Nat) : Word := BitVec.ofNat 16 (w % 2 ^ nbits)

/-- The instruction the decoder reads from a table word laid out big-endian in two bytes (20_memory.md R34); none
where the decoder refuses. -/
def decodeTableWord (nbits w : Nat) : Option Instr :=
  match decodeBytes [highByte (tableWord nbits w), lowByte (tableWord nbits w)] with
  | .ok (i, _) => some i
  | .error _ => none

end Sys2Proof
end

