-- ==== Sys2Proof/Config.lean ====
section
/-! DEFINITION. What is fixed for the machine: the constants of 00_scope.md R5, the type of the parameters of R6,
and the one free value, the random byte of `Cxnn` (41_alu.md R104). -/

namespace Sys2Proof.Config

/-- `MEM_SIZE`: bytes of memory (R5). -/
def memSize : Nat := 4096

/-- `ADDR_MAX`: the highest valid memory address (R5). -/
def addrMax : Nat := 0xFFF

/-- `FONT_BASE`: the first byte of font data (R5). -/
def fontBase : Nat := 0x050

/-- `FONT_END`: the last byte of font data (R5). -/
def fontEnd : Nat := 0x09F

/-- `GLYPH_BYTES`: bytes per font glyph (R5). -/
def glyphBytes : Nat := 5

/-- `PROG_BASE`: the first byte of a loaded program (R5). -/
def progBase : Nat := 0x200

/-- `PROG_MAX`: the largest program image (R5). -/
def progMax : Nat := 3584

/-- `FB_W`: framebuffer columns (R5). -/
def fbW : Nat := 64

/-- `FB_H`: framebuffer rows (R5). -/
def fbH : Nat := 32

/-- `random_byte()`: the byte of the `k`-th draw since power-on. It has no body anyone can evaluate, so a claim holds
for every value of every draw (41_alu.md R104, D18). FREE VALUE, log entry 3. -/
opaque randomByte : Nat → Byte

end Sys2Proof.Config

namespace Sys2Proof

/-- The 80 font bytes, glyph of digit `d` at places `5*d` to `5*d + 4` (20_memory.md R32). -/
abbrev Font := Vector Byte 80

/-- The optional parameter `FONT_STRIDE` of R6: 5 (the value of every rule) or 1 (the literal reading, U14). -/
inductive FontStride where
  /-- stride 5, the spec's decision D6 -/
  | five
  /-- stride 1, the alternative value U14 keeps -/
  | one
deriving DecidableEq, Repr

/-- The parameters 00_scope.md R6 says the model takes as arguments. -/
structure Params where
  /-- `STACK_DEPTH`: `none` is `unbounded` (D8) -/
  stackDepth : Option Nat
  /-- `FONT` (D19) -/
  font : Font
  /-- `RESET_PC` (D1) -/
  resetPc : Word
  /-- `FONT_STRIDE` (D6) -/
  fontStride : FontStride
deriving DecidableEq, Repr

end Sys2Proof
end

