-- ==== Sys2Proof/Machine/Defaults.lean ====
section
/-! DEFINITION. The default value of each parameter of 00_scope.md R6. -/

namespace Sys2Proof.Machine

/-- The customary CHIP-8 font, `93_implementation_defined.md` G1: the default of `FONT` (R6, D19). PRESUMED, log
entry 6: the spec marks the bytes as general knowledge, not in its source. -/
def customaryFont : Font :=
  #v[0xF0, 0x90, 0x90, 0x90, 0xF0,  0x20, 0x60, 0x20, 0x20, 0x70,
     0xF0, 0x10, 0xF0, 0x80, 0xF0,  0xF0, 0x10, 0xF0, 0x10, 0xF0,
     0x90, 0x90, 0xF0, 0x10, 0x10,  0xF0, 0x80, 0xF0, 0x10, 0xF0,
     0xF0, 0x80, 0xF0, 0x90, 0xF0,  0xF0, 0x10, 0x20, 0x40, 0x40,
     0xF0, 0x90, 0xF0, 0x90, 0xF0,  0xF0, 0x90, 0xF0, 0x10, 0xF0,
     0xF0, 0x90, 0xF0, 0x90, 0x90,  0xE0, 0x90, 0xE0, 0x90, 0xE0,
     0xF0, 0x80, 0x80, 0x80, 0xF0,  0xE0, 0x90, 0x90, 0x90, 0xE0,
     0xF0, 0x80, 0xF0, 0x80, 0xF0,  0xF0, 0x80, 0xF0, 0x80, 0x80]

/-- The defaults of R6: an unbounded stack (D8), the customary font (D19), `RESET_PC = 0x200` (D1), stride 5 (D6). -/
def defaultParams : Params :=
  { stackDepth := none, font := customaryFont, resetPc := 0x200, fontStride := .five }

/-- The number a `FONT_STRIDE` value stands for (R6). -/
def strideBytes : FontStride → Nat
  | .five => 5
  | .one => 1

end Sys2Proof.Machine
end

