-- ==== Sys2Proof/Machine/State.lean ====
section
/-! DEFINITION. The state as plain data (10_state.md), what stops a step (60_exceptions.md section 1), and the state
right after reset (70_reset_and_hazards.md R171). -/

namespace Sys2Proof.Machine

/-- Memory: the cells that differ from their power-on contents, addresses strictly rising (10_state.md R21; canonical
form `Memory.wf`, log entry 13). -/
abbrev Memory := List Host.Cell

/-- The framebuffer: 32 rows of 64 one-bit cells; column 0 is a row's most significant bit (10_state.md R19, D20;
log entry 14). -/
abbrev Framebuffer := Vector (BitVec 64) 32

/-- What an agent other than the instruction step does between two steps (20_memory.md R43). -/
inductive Event where
  /-- the delay unit's 60 Hz period fires (44_keypad_timers.md R141) -/
  | delayTick
  /-- the sound unit's 60 Hz period fires (44_keypad_timers.md R142) -/
  | soundTick
  /-- the host's key port writes the latch (60_exceptions.md R162) -/
  | keyPort (k : Option Key)
deriving DecidableEq, Repr

/-- Why a step, or the load port, reports a fault (60_exceptions.md R150). A fault leaves the state as it was before
the step (R156). -/
inductive Fault where
  /-- Code 1. Raised by the fetch of every step and by `Fx33`, `Fx55`, `Fx65`, `Dxyn`: the least address above
  `0xFFF` the access would touch (R151). Safe: the model stops where a machine without this check would go on. -/
  | addressOutOfRange (a : Nat)
  /-- Code 2. Raised by `2nnn` on a full stack of finite `STACK_DEPTH`: the depth (R152). Safe: the model stops where
  a deeper stack would go on. -/
  | stackOverflow (depth : Nat)
  /-- Code 3. Raised by the load port, never by a step: the length of an image over 3584 bytes (R153). Safe: nothing
  is written. -/
  | imageTooLarge (length : Nat)
deriving DecidableEq, Repr

/-- What the model gives no meaning. -/
inductive Refusal where
  /-- An instruction that has no meaning yet; raised by an arm of `exec` only. Safe. No arm raises it. -/
  | notModelled (mnemonic : String)
  /-- Raised by the load port, never by a step: a second load, or a load after a step (70_reset_and_hazards.md R174,
  U12 "Refuse"). Safe: no claim about such a load can be proved. -/
  | loadPortClosed
deriving DecidableEq, Repr

/-- What a step reports to the host: an output, not state (60_exceptions.md R159). -/
inductive Status where
  /-- a recognised instruction ran to completion -/
  | executed
  /-- the word matched no row of the opcode table -/
  | unrecognized (w : Word)
  /-- `Fx0A` found no key -/
  | awaitingInput
  /-- a fault of R150 with its code and recorded value -/
  | fault (code info : Nat)
deriving DecidableEq, Repr

/-- The state. The first nine fields are the architectural state, and "there is no other" (10_state.md section 1);
`params` carries the parameters of 00_scope.md R6, which no step writes; the last three are the model's own (log
entries 1, 3 and 11). -/
structure State where
  /-- `V[0]`..`V[15]`; `V[15]` is `VF`, the flag register (R10, R12) -/
  v : Vector Byte 16
  /-- `I` (R15) -/
  i : Word
  /-- `pc` (R13) -/
  pc : Word
  /-- `stack`, the top entry first (R16) -/
  stack : List Word
  /-- `DT` (R18) -/
  dt : Byte
  /-- `ST` (R18) -/
  st : Byte
  /-- `FB` (R19) -/
  fb : Framebuffer
  /-- `KEY` (R20) -/
  key : Option Key
  /-- `Mem` (R21) -/
  mem : Memory
  /-- the parameters of 00_scope.md R6 -/
  params : Params
  /-- how many random bytes were drawn (the model's own; 41_alu.md R104) -/
  draws : Nat
  /-- for each coming step, what lands before it (the model's own; 44_keypad_timers.md R143) -/
  schedule : List (List Event)
  /-- whether the load port may still be used (the model's own; 70_reset_and_hazards.md R174) -/
  loadable : Bool
deriving DecidableEq, Repr

/-- The three outcomes of a step over this state. -/
abbrev Result := Host.Outcome State Fault Refusal

/-- The state after reset of a machine with parameters `p` (70_reset_and_hazards.md R171). The font is the power-on
contents of memory, so memory lists nothing. -/
def State.resetWith (p : Params) : State :=
  { v := Vector.replicate 16 0
    i := 0
    pc := p.resetPc
    stack := []
    dt := 0
    st := 0
    fb := Vector.replicate 32 0
    key := none
    mem := []
    params := p
    draws := 0
    schedule := []
    loadable := true }

/-- The state after reset with the defaults of 00_scope.md R6 (R171). -/
def State.reset : State := State.resetWith defaultParams

end Sys2Proof.Machine
end

