-- ==== Sys2Proof/Machine/Ops.lean ====
section
/-! DEFINITION. The named operations over memory, registers, pc, stack, framebuffer, timers and key latch: the
pseudocode primitives of 00_scope.md section 5.3. Every access of every instruction goes through them. -/

namespace Sys2Proof.Machine

/-! ### Faults -/

/-- `raise <Fault>(info)`: the step ends and reports the fault; no state is handed on, so every change of the step is
discarded (60_exceptions.md R150, R156). The hardware has no handler, no saved register and no return (R156, R157). -/
def raise (f : Fault) : Result := .fault f

/-- The numeric code of a fault (R150). -/
def faultCode : Fault → Nat
  | .addressOutOfRange _ => 1
  | .stackOverflow _ => 2
  | .imageTooLarge _ => 3

/-- The recorded value `info` of a fault (R150). -/
def faultInfo : Fault → Nat
  | .addressOutOfRange a => a
  | .stackOverflow depth => depth
  | .imageTooLarge length => length

/-- Go on with the value of a check that passed; raise its fault if it did not. -/
def guarded {α : Type} (check : Except Fault α) (go : α → Result) : Result :=
  match check with
  | .ok a => go a
  | .error f => raise f

/-! ### Memory -/

/-- What memory holds at power-on: the font at `0x050` to `0x09F`, 0 elsewhere (20_memory.md R30, 10_state.md R21).
An unlisted address reads as this. -/
def background (font : Font) (a : Nat) : Byte :=
  if Config.fontBase ≤ a ∧ a ≤ Config.fontEnd then font.toList.getD (a - Config.fontBase) 0 else 0

/-- The cell listed for an address, if there is one. -/
def Memory.lookup : Memory → Nat → Option Byte
  | [], _ => none
  | (k, b) :: rest, a => if k = a then some b else Memory.lookup rest a

/-- The byte at an address. -/
def Memory.read (font : Font) (m : Memory) (a : Nat) : Byte :=
  (Memory.lookup m a).getD (background font a)

/-- Take an address off the list. -/
def Memory.erase : Memory → Nat → Memory
  | [], _ => []
  | (k, b) :: rest, a => if k = a then Memory.erase rest a else (k, b) :: Memory.erase rest a

/-- List a byte for an address, in its place in the order. -/
def Memory.insert : Memory → Nat → Byte → Memory
  | [], a, b => [(a, b)]
  | (k, c) :: rest, a, b =>
    if a < k then (a, b) :: (k, c) :: rest
    else if k = a then (a, b) :: rest
    else (k, c) :: Memory.insert rest a b

/-- Write a byte, keeping the canonical form: a byte equal to the power-on contents is not listed. -/
def Memory.write (font : Font) (m : Memory) (a : Nat) (b : Byte) : Memory :=
  if b = background font a then Memory.erase m a else Memory.insert m a b

/-- Addresses strictly rise and none is below `lo`. -/
def Memory.risingFrom (lo : Nat) : Memory → Bool
  | [] => true
  | (k, _) :: rest => decide (lo ≤ k) && Memory.risingFrom (k + 1) rest

/-- The canonical form: addresses strictly rising, all below `MEM_SIZE`, no cell equal to its power-on contents. -/
def Memory.wf (font : Font) (m : Memory) : Bool :=
  Memory.risingFrom 0 m && m.all (fun c => decide (c.1 < Config.memSize) && c.2 != background font c.1)

/-- `Mem[a]`. -/
def State.byteAt (s : State) (a : Nat) : Byte := Memory.read s.params.font s.mem a

/-- `Mem[a] <- b`, for an address already checked. -/
def State.storeByte (s : State) (a : Nat) (b : Byte) : State :=
  { s with mem := Memory.write s.params.font s.mem a b }

/-- Consecutive bytes stored in ascending address order from `a` (20_memory.md R34). -/
def State.storeBytes (s : State) (a : Nat) : List Byte → State
  | [] => s
  | b :: rest => (s.storeByte a b).storeBytes (a + 1) rest

/-- `count` consecutive bytes read in ascending address order from `a` (20_memory.md R34). -/
def State.loadBytes (s : State) (a : Nat) : Nat → List Byte
  | 0 => []
  | count + 1 => s.byteAt a :: s.loadBytes (a + 1) count

/-- The bounds check of an access to `count` bytes from `base`, over the natural numbers: it reports the least address
above `ADDR_MAX`, and an access of no byte passes (20_memory.md R37 to R39). -/
def checkRange (base count : Nat) : Except Fault Unit :=
  if 0 < count ∧ Config.addrMax < base + count - 1 then
    .error (.addressOutOfRange (max base (Config.addrMax + 1)))
  else .ok ()

/-- Phase 1 of a step: `w <- MemRead(pc, 2)`, big-endian (40_flow.md R70, 20_memory.md R34, R37). -/
def State.fetch (s : State) : Except Fault Word :=
  match checkRange s.pc.toNat 2 with
  | .ok () => .ok (s.byteAt s.pc.toNat ++ s.byteAt (s.pc.toNat + 1))
  | .error f => .error f

/-! ### Registers -/

/-- `V[x]` (10_state.md R10). -/
def State.reg (s : State) (x : Reg) : Byte := s.v[x.val]

/-- `V[x] <- b` (10_state.md R10). No register is hardwired. -/
def State.setReg (s : State) (x : Reg) (b : Byte) : State := { s with v := s.v.set x.val b }

/-- The number of the flag register `VF` (10_state.md R12). -/
def flagReg : Reg := 15

/-- `V[15] <- 1 if flag else 0` (10_state.md R12). -/
def State.setFlag (s : State) (flag : Bool) : State := s.setReg flagReg (if flag then 1 else 0)

/-- `V[0]`, ..., `V[x]` in ascending order (42_index_memory.md R114). -/
def State.regsThrough (s : State) (x : Reg) : List Byte := s.v.toList.take (x.val + 1)

/-- Consecutive registers from number `k` written in ascending order (42_index_memory.md R115); there is no register
above 15. -/
def State.setRegsFrom (s : State) (k : Nat) : List Byte → State
  | [] => s
  | b :: rest => (if h : k < 16 then s.setReg ⟨k, h⟩ b else s).setRegsFrom (k + 1) rest

/-- `I <- w` (10_state.md R15). -/
def State.setIndex (s : State) (w : Word) : State := { s with i := w }

/-! ### Program counter and stack -/

/-- `pc <- w` (10_state.md R13). -/
def State.setPc (s : State) (w : Word) : State := { s with pc := w }

/-- `pc <- trunc_16(pc + 2)`: phase 2 of a step, and a skip (40_flow.md R70, R75). -/
def State.advance (s : State) : State := s.setPc (s.pc + 2)

/-- `skip` when the condition holds (40_flow.md section 3). -/
def State.skipIf (s : State) (c : Bool) : State := if c then s.advance else s

/-- `push(w)`, raising `StackOverflow` when a finite `STACK_DEPTH` is reached (40_flow.md R72, 60_exceptions.md
R152). The test is equality, as the rules write it (log entry 20). -/
def State.push (s : State) (w : Word) : Except Fault State :=
  if s.params.stackDepth = some s.stack.length then .error (.stackOverflow s.stack.length)
  else .ok { s with stack := w :: s.stack }

/-- `pc <- pop()`; nothing on an empty stack (40_flow.md R73). -/
def State.popPc (s : State) : State :=
  match s.stack with
  | [] => s
  | w :: rest => { s with pc := w, stack := rest }

/-! ### Framebuffer -/

/-- Row `r` of the framebuffer; there is none from row 32 on. -/
def Framebuffer.row (fb : Framebuffer) (r : Nat) : BitVec 64 := fb[r]?.getD 0

/-- `FB[r][c]`: column 0 is a row's most significant bit (10_state.md R19). -/
def Framebuffer.cell (fb : Framebuffer) (r c : Nat) : Bool := (fb.row r).getMsbD c

/-- Every cell 0 (43_display.md R120). -/
def Framebuffer.blank : Framebuffer := Vector.replicate 32 0

/-- XOR a row of bits into row `r`, and whether a 1 bit met a 1 cell (43_display.md R121, R124). -/
def Framebuffer.xorRow (fb : Framebuffer) (r : Nat) (bits : BitVec 64) : Framebuffer × Bool :=
  (fb.setIfInBounds r (fb.row r ^^^ bits), fb.row r &&& bits != 0)

/-! ### Timers and key latch -/

/-- `if c > 0: c <- c - 1`: a tick never goes below 0 (44_keypad_timers.md R141, R142). -/
def tickDown (c : Byte) : Byte := if c = 0 then 0 else c - 1

/-- The delay tick (R141). -/
def State.delayTick (s : State) : State := { s with dt := tickDown s.dt }

/-- The sound tick (R142). -/
def State.soundTick (s : State) : State := { s with st := tickDown s.st }

/-- The key port's write (60_exceptions.md R162). -/
def State.writeKey (s : State) (k : Option Key) : State := { s with key := k }

/-- What one event does (20_memory.md R43). -/
def Event.apply (s : State) : Event → State
  | .delayTick => s.delayTick
  | .soundTick => s.soundTick
  | .keyPort k => s.writeKey k

/-- Events landing one after another. -/
def deliver (s : State) : List Event → State
  | [] => s
  | e :: rest => deliver (Event.apply s e) rest

/-- What stands before an instruction: the events the schedule puts before this step land, and from this step on the
load port is closed (44_keypad_timers.md R143, 70_reset_and_hazards.md R174; log entries 1 and 11). -/
def State.beginStep (s : State) : State :=
  match s.schedule with
  | [] => { s with loadable := false }
  | now :: later => deliver { s with schedule := later, loadable := false } now

/-- `draw_byte()`: the byte of this draw and the state that has drawn it (41_alu.md R104). -/
def State.drawByte (s : State) : Byte × State :=
  (Config.randomByte s.draws, { s with draws := s.draws + 1 })

end Sys2Proof.Machine
end

