-- ==== Sys2Proof/Machine/Operands.lean ====
section
/-! DEFINITION. The operand forms (30_encoding.md R53, 42_index_memory.md R116, 44_keypad_timers.md R133). -/

namespace Sys2Proof.Machine

/-- `zext_16(nnn)`: a 12-bit address as a `pc` or `I` value (R53). -/
def addrWord (nnn : Addr) : Word := nnn.setWidth 16

/-- The base of a data address: `I` as a natural number, no wrap and no masking (R116). -/
def State.base (s : State) : Nat := s.i.toNat

/-- `zext_8(k)`: a key identifier as a register value (44_keypad_timers.md R132). -/
def keyByte (k : Key) : Byte := BitVec.ofNat 8 k.val

/-- "The currently pressed key equals `vx`": a key is down and its identifier is the whole byte `vx` (R133). -/
def keyIs (key : Option Key) (vx : Byte) : Bool :=
  match key with
  | none => false
  | some k => k.val == vx.toNat

/-- `trunc_16(nnn + V[0])` (40_flow.md R74). -/
def jumpSum (nnn : Addr) (v0 : Byte) : Word := BitVec.ofNat 16 (nnn.toNat + v0.toNat)

/-- `trunc_16(I + vx)` (42_index_memory.md R111). -/
def indexSum (i : Word) (vx : Byte) : Word := BitVec.ofNat 16 (i.toNat + vx.toNat)

/-- `trunc_16(0x050 + FONT_STRIDE * vx)`: the glyph address of `Fx29` (42_index_memory.md R112, 00_scope.md R6). -/
def glyphAddr (stride : FontStride) (vx : Byte) : Word :=
  BitVec.ofNat 16 (Config.fontBase + strideBytes stride * vx.toNat)

/-- The decimal digits of a byte: hundreds, tens, ones (42_index_memory.md R113). -/
def bcdDigits (vx : Byte) : List Byte :=
  [BitVec.ofNat 8 (vx.toNat / 100), BitVec.ofNat 8 (vx.toNat / 10 % 10), BitVec.ofNat 8 (vx.toNat % 10)]

/-- `x0 = vx mod 64` (43_display.md R123). -/
def originColumn (vx : Byte) : Nat := vx.toNat % Config.fbW

/-- `y0 = vy mod 32` (43_display.md R123). -/
def originRow (vy : Byte) : Nat := vy.toNat % Config.fbH

/-- `rows = min(n, 32 - y0)`: the sprite rows that are not clipped (43_display.md R123). -/
def drawnRows (n : Nibble) (vy : Byte) : Nat := min n.toNat (Config.fbH - originRow vy)

/-- A sprite byte as a framebuffer row from column `x0`: bit 7 at column `x0`; bits past column 63 fall off the right
end (43_display.md R122, R123). -/
def spriteRow (x0 : Nat) (byte : Byte) : BitVec 64 := (byte ++ (0 : BitVec 56)) >>> x0

end Sys2Proof.Machine
end

