-- ==== Sys2Proof/Machine/Flags.lean ====
section
/-! DEFINITION. Every flag computation (10_state.md R12): the one flag is the value 0 or 1 in `VF`. -/

namespace Sys2Proof.Machine

/-- Carry of `8xy4`: "1 if the unwrapped sum exceeds 255, else 0" (41_alu.md R97). -/
def carryFlag (a b : Byte) : Bool := decide (255 < a.toNat + b.toNat)

/-- Flag of `8xy5` and `8xy7`: the minuend is strictly greater than the subtrahend (41_alu.md R90 item 2). -/
def greaterFlag (minuend subtrahend : Byte) : Bool := decide (subtrahend.toNat < minuend.toNat)

/-- Flag of `8xy6`: bit 0 before the shift (41_alu.md R99). -/
def lowBitFlag (a : Byte) : Bool := a.getLsbD 0

/-- Flag of `8xyE`: bit 7 before the shift (41_alu.md R101). -/
def highBitFlag (a : Byte) : Bool := a.getLsbD 7

/-- Flag of `Fx1E`: the sum before truncation is above `0xFFF` (42_index_memory.md R111). -/
def indexFlag (i : Word) (vx : Byte) : Bool := decide (Config.addrMax < i.toNat + vx.toNat)

/-- Write the primary result to `V[x]`, then the flag to `VF`, last (41_alu.md R90 item 6, 10_state.md R12). -/
def State.setRegFlag (s : State) (x : Reg) (result : Byte) (flag : Bool) : State :=
  (s.setReg x result).setFlag flag

end Sys2Proof.Machine
end

