-- ==== Sys2Proof/Machine/Alu.lean ====
section
/-! DEFINITION. Register ALU instructions (41_alu.md). `vx` and `vy` are read from the state at the start of the
execute phase; the primary result is written before the flag (R90). -/

namespace Sys2Proof.Machine

/-- `6xnn` (R91). -/
def execLdImm (x : Reg) (nn : Byte) (s : State) : Result := .next (s.setReg x nn)

/-- `7xnn` (R92): no flag effect. -/
def execAddImm (x : Reg) (nn : Byte) (s : State) : Result := .next (s.setReg x (s.reg x + nn))

/-- `8xy0` (R93). -/
def execLdReg (x y : Reg) (s : State) : Result := .next (s.setReg x (s.reg y))

/-- `8xy1` (R94): no flag effect. -/
def execOrReg (x y : Reg) (s : State) : Result := .next (s.setReg x (s.reg x ||| s.reg y))

/-- `8xy2` (R95): no flag effect. -/
def execAndReg (x y : Reg) (s : State) : Result := .next (s.setReg x (s.reg x &&& s.reg y))

/-- `8xy3` (R96): no flag effect. -/
def execXorReg (x y : Reg) (s : State) : Result := .next (s.setReg x (s.reg x ^^^ s.reg y))

/-- `8xy4` (R97). -/
def execAddReg (x y : Reg) (s : State) : Result :=
  .next (s.setRegFlag x (s.reg x + s.reg y) (carryFlag (s.reg x) (s.reg y)))

/-- `8xy5` (R98). -/
def execSubReg (x y : Reg) (s : State) : Result :=
  .next (s.setRegFlag x (s.reg x - s.reg y) (greaterFlag (s.reg x) (s.reg y)))

/-- `8xy6` (R99): `vy` is not used (30_encoding.md R56). -/
def execShr (x : Reg) (s : State) : Result :=
  .next (s.setRegFlag x (s.reg x >>> 1) (lowBitFlag (s.reg x)))

/-- `8xy7` (R100). -/
def execSubn (x y : Reg) (s : State) : Result :=
  .next (s.setRegFlag x (s.reg y - s.reg x) (greaterFlag (s.reg y) (s.reg x)))

/-- `8xyE` (R101): `vy` is not used (30_encoding.md R56). -/
def execShl (x : Reg) (s : State) : Result :=
  .next (s.setRegFlag x (s.reg x <<< 1) (highBitFlag (s.reg x)))

/-- `Cxnn` (R104): a fresh draw, masked. -/
def execRnd (x : Reg) (nn : Byte) (s : State) : Result :=
  .next (s.drawByte.2.setReg x (s.drawByte.1 &&& nn))

end Sys2Proof.Machine
end

