-- ==== Sys2Proof/Machine/Display.lean ====
section
/-! DEFINITION. The framebuffer and the XOR-blit sprite engine (43_display.md). -/

namespace Sys2Proof.Machine

/-- XOR the given sprite bytes into consecutive rows from row `r`, each from column `x0`, and whether any pixel
collided (R121, R124). -/
def blit (x0 : Nat) (fb : Framebuffer) (r : Nat) : List Byte → Framebuffer × Bool
  | [] => (fb, false)
  | byte :: rest =>
    let drawn := fb.xorRow r (spriteRow x0 byte)
    let later := blit x0 drawn.1 (r + 1) rest
    (later.1, drawn.2 || later.2)

/-- `00E0` (R120). -/
def execCls (s : State) : Result := .next { s with fb := Framebuffer.blank }

/-- `Dxyn` (R121): `vx` and `vy` are read before `VF` is written, clipped rows are neither drawn nor read, and the
range of the drawn rows is checked before any change. -/
def execDrw (x y : Reg) (n : Nibble) (s : State) : Result :=
  guarded (checkRange s.base (drawnRows n (s.reg y))) fun _ =>
    let drawn := blit (originColumn (s.reg x)) s.fb (originRow (s.reg y))
      (s.loadBytes s.base (drawnRows n (s.reg y)))
    .next ({ s with fb := drawn.1 }.setFlag drawn.2)

end Sys2Proof.Machine
end

