-- ==== Sys2Proof/Machine/Flow.lean ====
section
/-! DEFINITION. Jumps, calls, returns and skips (40_flow.md). The state each meaning takes is the state of the execute
phase: `pc` is already the address of the next word (R70). -/

namespace Sys2Proof.Machine

/-- `1nnn` (R71). -/
def execJp (nnn : Addr) (s : State) : Result := .next (s.setPc (addrWord nnn))

/-- `2nnn` (R72). -/
def execCall (nnn : Addr) (s : State) : Result :=
  guarded (s.push s.pc) fun pushed => .next (pushed.setPc (addrWord nnn))

/-- `00EE` (R73). -/
def execRet (s : State) : Result := .next s.popPc

/-- `Bnnn` (R74). -/
def execJpV0 (nnn : Addr) (s : State) : Result := .next (s.setPc (jumpSum nnn (s.reg 0)))

/-- `3xnn` (R75). -/
def execSeImm (x : Reg) (nn : Byte) (s : State) : Result := .next (s.skipIf (s.reg x == nn))

/-- `4xnn` (R76). -/
def execSneImm (x : Reg) (nn : Byte) (s : State) : Result := .next (s.skipIf (s.reg x != nn))

/-- `5xy0` (R77). -/
def execSeReg (x y : Reg) (s : State) : Result := .next (s.skipIf (s.reg x == s.reg y))

/-- `9xy0` (R78). -/
def execSneReg (x y : Reg) (s : State) : Result := .next (s.skipIf (s.reg x != s.reg y))

end Sys2Proof.Machine
end

