-- ==== Sys2Proof/Machine/IndexMemory.lean ====
section
/-! DEFINITION. Index register, loads and stores (42_index_memory.md). Each access checks its whole range before it
changes anything (20_memory.md R39). -/

namespace Sys2Proof.Machine

/-- `Annn` (R110). -/
def execLdI (nnn : Addr) (s : State) : Result := .next (s.setIndex (addrWord nnn))

/-- `Fx1E` (R111): the flag is written last. -/
def execAddI (x : Reg) (s : State) : Result :=
  .next ((s.setIndex (indexSum s.i (s.reg x))).setFlag (indexFlag s.i (s.reg x)))

/-- `Fx29` (R112). -/
def execLdF (x : Reg) (s : State) : Result :=
  .next (s.setIndex (glyphAddr s.params.fontStride (s.reg x)))

/-- `Fx33` (R113). -/
def execLdB (x : Reg) (s : State) : Result :=
  guarded (checkRange s.base 3) fun _ => .next (s.storeBytes s.base (bcdDigits (s.reg x)))

/-- `Fx55` (R114): `I` is unchanged. -/
def execStoreRegs (x : Reg) (s : State) : Result :=
  guarded (checkRange s.base (x.val + 1)) fun _ => .next (s.storeBytes s.base (s.regsThrough x))

/-- `Fx65` (R115): `I` is unchanged. -/
def execLoadRegs (x : Reg) (s : State) : Result :=
  guarded (checkRange s.base (x.val + 1)) fun _ =>
    .next (s.setRegsFrom 0 (s.loadBytes s.base (x.val + 1)))

end Sys2Proof.Machine
end

