-- ==== Sys2Proof/Machine/KeypadTimers.lean ====
section
/-! DEFINITION. Key input instructions, timer instructions and the sound output (44_keypad_timers.md). -/

namespace Sys2Proof.Machine

/-- `Ex9E` (R130). -/
def execSkp (x : Reg) (s : State) : Result := .next (s.skipIf (keyIs s.key (s.reg x)))

/-- `ExA1` (R131). -/
def execSknp (x : Reg) (s : State) : Result := .next (s.skipIf (!keyIs s.key (s.reg x)))

/-- `Fx0A` (R132): with no key down, `pc` goes back to this instruction. -/
def execLdVxK (x : Reg) (s : State) : Result :=
  match s.key with
  | none => .next (s.setPc (s.pc - 2))
  | some k => .next (s.setReg x (keyByte k))

/-- `Fx07` (R135). -/
def execLdVxDT (x : Reg) (s : State) : Result := .next (s.setReg x s.dt)

/-- `Fx15` (R136). -/
def execLdDTVx (x : Reg) (s : State) : Result := .next { s with dt := s.reg x }

/-- `Fx18` (R137). -/
def execLdSTVx (x : Reg) (s : State) : Result := .next { s with st := s.reg x }

/-- `sound_active`: 1 if `ST != 0`, else 0 (R146). -/
def soundActive (s : State) : Bool := s.st != 0

end Sys2Proof.Machine
end

