-- ==== Sys2Proof/Machine/Cycle.lean ====
section
/-! DEFINITION. The step cycle (40_flow.md R70) and the status it reports (60_exceptions.md R159). -/

namespace Sys2Proof.Machine

/-- Fetch, advance, decode, execute (R70). A word that matches no row is a no-op: `pc` was already advanced and
nothing else changes (R79). -/
def cycle (s : State) : Result :=
  guarded s.fetch fun w =>
    match decode w with
    | .ok i => exec i s.advance
    | .error _ => .next s.advance

/-- The status of an instruction that completes on state `s`: `AwaitingInput` when `Fx0A` finds no key, else
`Executed` (R159, 44_keypad_timers.md R134). -/
def completionStatus (i : Instr) (s : State) : Status :=
  match i with
  | .ldVxK _ => if s.key = none then .awaitingInput else .executed
  | _ => .executed

/-- The status `Fault(code, info)` (R159). -/
def faultStatus (f : Fault) : Status := .fault (faultCode f) (faultInfo f)

/-- The status an outcome of the execute phase reports; a refusal, which no instruction answers, has none. -/
def outcomeStatus (completed : Status) : Result → Option Status
  | .next _ => some completed
  | .fault f => some (faultStatus f)
  | .refused _ => none

/-- The status the cycle reports (R159): an output computed beside the step, not state. -/
def cycleStatus (s : State) : Option Status :=
  match s.fetch with
  | .error f => some (faultStatus f)
  | .ok w =>
    match decode w with
    | .error _ => some (.unrecognized w)
    | .ok i => outcomeStatus (completionStatus i s.advance) (exec i s.advance)

/-- One step request: what the schedule puts before this step lands, then the cycle runs (60_exceptions.md R164). -/
def runStep (s : State) : Result := cycle s.beginStep

/-- Store the first word of an instruction where the next step fetches. A `pc` from which no fetch can succeed is set
to `PROG_BASE` first (log entry 17). -/
def State.placeWord (s : State) (w : Word) : State :=
  let here := if s.pc.toNat + 1 ≤ Config.addrMax then s else s.setPc (BitVec.ofNat 16 Config.progBase)
  here.storeBytes here.pc.toNat [highByte w, lowByte w]

end Sys2Proof.Machine
end

