-- ==== Sys2Proof/Machine/Step.lean ====
section
/-! DEFINITION. One step of the machine, and an instruction placed where it fetches. -/

namespace Sys2Proof.Machine

/-- One step request (60_exceptions.md R164). -/
def step : State → Host.Outcome State Fault Refusal := runStep

/-- The state with an instruction's bits stored where `step` fetches its next instruction. -/
def State.withFetchWord (s : State) (nbits w : Nat) : State := s.placeWord (tableWord nbits w)

end Sys2Proof.Machine
end

