-- ==== Sys2Proof/Machine/HostPort.lean ====
section
/-! DEFINITION. What the host can do to the block beside the key port and a plain step (60_exceptions.md section 8,
70_reset_and_hazards.md sections 1 and 2). -/

namespace Sys2Proof.Machine

/-- The load port: an image's bytes copied from `0x200`, once, before the first step; too long an image is refused and
nothing is written (70_reset_and_hazards.md R173 to R175). -/
def loadPort (image : List Byte) (s : State) : Result :=
  if s.loadable = false then .refused .loadPortClosed
  else if Config.progMax < image.length then raise (.imageTooLarge image.length)
  else .next { s.storeBytes Config.progBase image with loadable := false }

/-- Reset asserted between two steps: every piece of architectural state is discarded (70_reset_and_hazards.md R170).
What is outside the block stays: the parameters, the events still to come, and how many bytes were drawn, so that no
draw repeats (10_state.md R22, log entry 12). -/
def assertReset (s : State) : State :=
  { State.resetWith s.params with draws := s.draws, schedule := s.schedule }

/-- The framebuffer read port: the cell at a row and a column (60_exceptions.md R161). -/
def framebufferPort (s : State) (r : Fin 32) (c : Fin 64) : Bool := s.fb.cell r.val c.val

/-- One step request with what the host gets: the state a continuing host steps from next, and the status. On a fault
the architectural state is as it was before the step (60_exceptions.md R156, R157, R164). -/
def request (s : State) : State × Option Status :=
  match step s with
  | .next t => (t, cycleStatus s.beginStep)
  | .fault _ => (s.beginStep, cycleStatus s.beginStep)
  | .refused _ => (s.beginStep, cycleStatus s.beginStep)

end Sys2Proof.Machine
end

