-- ==== Sys2Proof/Safety.lean ====
section
/-! DEFINITION. The terms claims are stated in: what an outcome leaves unchanged, which words a row admits, the
machine's invariant, what a safe step and a finished run are. -/

namespace Sys2Proof.Machine

/-! ### Frames -/

/-- A piece of state beside the general registers. -/
inductive Part where
  /-- `I` -/
  | index
  /-- `pc` -/
  | pc
  /-- the stack -/
  | stack
  /-- `DT` -/
  | delay
  /-- `ST` -/
  | sound
  /-- `FB` -/
  | display
  /-- `KEY` -/
  | key
  /-- `Mem`, every byte of it -/
  | memory
  /-- the count of bytes drawn -/
  | draws
deriving DecidableEq, Repr

/-- From `s` to `t` nothing changed but possibly the registers in `regs` and the parts in `parts`: every other
register, every other part, every byte of memory where memory is no such part, the parameters, the events still to
come and the load port. -/
def UnchangedBut (regs : List Reg) (parts : List Part) (s t : State) : Prop :=
  (∀ r, r ∉ regs → t.reg r = s.reg r) ∧
  (Part.index ∉ parts → t.i = s.i) ∧
  (Part.pc ∉ parts → t.pc = s.pc) ∧
  (Part.stack ∉ parts → t.stack = s.stack) ∧
  (Part.delay ∉ parts → t.dt = s.dt) ∧
  (Part.sound ∉ parts → t.st = s.st) ∧
  (Part.display ∉ parts → t.fb = s.fb) ∧
  (Part.key ∉ parts → t.key = s.key) ∧
  (Part.memory ∉ parts → ∀ a, t.byteAt a = s.byteAt a) ∧
  (Part.draws ∉ parts → t.draws = s.draws) ∧
  t.params = s.params ∧ t.schedule = s.schedule ∧ t.loadable = s.loadable

/-- Every byte outside the `count` bytes from `base` reads as before. -/
def MemoryKeptOutside (base count : Nat) (s t : State) : Prop :=
  ∀ a, a < base ∨ base + count ≤ a → t.byteAt a = s.byteAt a

/-! ### Encodings -/

/-- The words of a row are exactly those that decode to its instruction, with the operands of the word's fields:
"a word `w` is the instruction of a row when `w AND mask = match`" (30_encoding.md R55). -/
def RowDecodesTo (mask pattern : Word) (instrOf : Word → Instr) : Prop :=
  ∀ w : Word, w &&& mask = pattern ↔ decode w = .ok (instrOf w)

/-! ### Sprites -/

/-- Whether the sprite at `I`, drawn with its origin at column `x0` and row `y0` and `rows` rows high, has a 1 bit for
the framebuffer cell at row `r` and column `c`: bit 7 of a sprite byte is its leftmost pixel (43_display.md R122). -/
def State.spriteBitAt (s : State) (x0 y0 rows r c : Nat) : Bool :=
  decide (y0 ≤ r ∧ r < y0 + rows ∧ x0 ≤ c ∧ c < x0 + 8) &&
    (s.byteAt (s.i.toNat + (r - y0))).getLsbD (7 - (c - x0))

/-! ### Invariant, safe steps, finished runs -/

/-- What every step keeps: memory is in canonical form, a finite stack is not overfull, every return address is at
most `0x1000` (40_flow.md R72), and `pc` is at most `0x10FE` (10_state.md R14). -/
structure State.Inv (s : State) : Prop where
  /-- memory is in canonical form -/
  memory : Memory.wf s.params.font s.mem = true
  /-- a finite `STACK_DEPTH` is not exceeded -/
  depth : ∀ d, s.params.stackDepth = some d → s.stack.length ≤ d
  /-- return addresses are at most `0x1000` -/
  returns : ∀ w ∈ s.stack, w.toNat ≤ 0x1000
  /-- `pc` is at most `0x10FE` -/
  pcBound : s.pc.toNat ≤ 0x10FE

/-- A step is safe when it ends in a next state: no fault and no refusal (60_exceptions.md R150). -/
def stepSafe (s : State) : Bool :=
  match step s with
  | .next _ => true
  | .fault _ => false
  | .refused _ => false

/-- A finished run: the word at `pc` is a jump to itself (70_reset_and_hazards.md R183, the spec's definition D21). -/
def terminal (s : State) : Bool :=
  decide (s.pc.toNat ≤ 0xFFE) && (s.byteAt s.pc.toNat ++ s.byteAt (s.pc.toNat + 1) == 0x1000#16 + s.pc)

end Sys2Proof.Machine
end

