-- ==== Sys2Proof/Certificates/Slice0/Obligations.lean ====
section
/-! DEFINITION. The statements for the provers, from the numbered rules of spec/. `exec i s` is the execute phase on
the state `s` after the fetch phase, so `s.pc` is the rules' "current `pc`" (40_flow.md R70). In every statement about
an instruction `UnchangedBut` is its frame. The encodings are R55's match and mask values, each proved to be exactly
the words that decode to the instruction. -/

open Sys2Proof Sys2Proof.Machine

/-! ### Decoding and encoding -/

/-- R34's example and one word of every row of R55, each written out from its format and selector: they decode as the
table says, and two words of no row are rejected by name. -/
def Obligations.SampleWordsDecode : Prop :=
  decodeBytes [0xA2, 0x34] = .ok (.ldI 0x234, []) ∧
  (∀ row ∈ ([(0x00E0, .cls), (0x00EE, .ret), (0x1ABC, .jp 0xABC), (0x220A, .call 0x20A), (0x332A, .seImm 3 0x2A),
      (0x432B, .sneImm 3 0x2B), (0x5120, .seReg 1 2), (0x6A3C, .ldImm 10 0x3C), (0x710A, .addImm 1 0x0A)] :
      List (Word × Instr)), decode row.1 = .ok row.2) ∧
  (∀ row ∈ ([(0x8120, .ldReg 1 2), (0x8121, .orReg 1 2), (0x8122, .andReg 1 2), (0x8123, .xorReg 1 2),
      (0x8F14, .addReg 15 1), (0x81F5, .subReg 1 15), (0x8126, .shr 1 2), (0x8127, .subn 1 2), (0x812E, .shl 1 2)] :
      List (Word × Instr)), decode row.1 = .ok row.2) ∧
  (∀ row ∈ ([(0x9120, .sneReg 1 2), (0xA234, .ldI 0x234), (0xB2F0, .jpV0 0x2F0), (0xC30F, .rnd 3 0x0F),
      (0xD012, .drw 0 1 2), (0xE19E, .skp 1), (0xE1A1, .sknp 1)] : List (Word × Instr)), decode row.1 = .ok row.2) ∧
  (∀ row ∈ ([(0xF307, .ldVxDT 3), (0xF20A, .ldVxK 2), (0xF115, .ldDTVx 1), (0xF118, .ldSTVx 1), (0xF21E, .addI 2),
      (0xF029, .ldF 0), (0xF033, .ldB 0), (0xFF55, .storeRegs 15), (0xF265, .loadRegs 2)] : List (Word × Instr)),
      decode row.1 = .ok row.2) ∧
  decode 0x0000 = .error (.unrecognized 0x0000) ∧ decode 0x8128 = .error (.unrecognized 0x8128)

/-- Decoding the encoding of any instruction, with any operands, gives that instruction back, and so does decoding
its two bytes in memory order. -/
def Obligations.DecodeOfEncode : Prop :=
  ∀ (i : Instr) (rest : List Byte),
    decode (encode i) = .ok i ∧ decodeBytes (encodeBytes i ++ rest) = .ok (i, rest)

/-- Every word that decodes is the encoding of what it decodes to: no bit of a word is dropped. -/
def Obligations.EncodeOfDecode : Prop :=
  ∀ (w : Word) (i : Instr), decode w = .ok i → encode i = w

/-- The words that decode are those some row of the opcode table admits, and no word is admitted by two rows. -/
def Obligations.DecodeFollowsOpcodeTable : Prop :=
  (∀ w : Word, WellFormed.word w = true ↔ ∃ i, decode w = .ok i) ∧
  (∀ (w : Word) (i : Instr), decode w = .ok i → i.row ∈ opcodeRows ∧ i.row.admits w = true) ∧
  opcodeRows.Pairwise (fun p q => ∀ w : Word, ¬ (p.admits w = true ∧ q.admits w = true))

/-- R58: a word is unrecognised exactly when it is in R58's list, and a step that fetches such a word is a no-op
whose `pc` still advances. -/
def Obligations.UnrecognizedWordsAreNops : Prop :=
  (∀ w : Word, decode w = .error (.unrecognized w) ↔
    (opField w = 0x0 ∧ nnnField w ≠ 0x0E0 ∧ nnnField w ≠ 0x0EE) ∨
    ((opField w = 0x5 ∨ opField w = 0x9) ∧ nField w ≠ 0x0) ∨
    (opField w = 0x8 ∧ nField w ∈ [0x8, 0x9, 0xA, 0xB, 0xC, 0xD, 0xF]) ∨
    (opField w = 0xE ∧ nnField w ≠ 0x9E ∧ nnField w ≠ 0xA1) ∨
    (opField w = 0xF ∧ nnField w ∉ [0x07, 0x0A, 0x15, 0x18, 0x1E, 0x29, 0x33, 0x55, 0x65])) ∧
  (∀ (s : State) (w : Word), s.fetch = .ok w → decode w = .error (.unrecognized w) →
    cycle s = .next { s with pc := s.pc + 2 })

/-! ### The step -/

/-- A step runs the decoded instruction: when the two bytes at `pc` decode to `i`, the step is `exec i` on the state
whose `pc` is 2 further. Around it the step first lets the events scheduled before it land (`now`, at the head of
`schedule`, which they are taken off) and closes the load port. -/
def Obligations.StepRunsDecodedInstruction : Prop :=
  ∀ (s e : State) (i : Instr),
    e = deliver { s with schedule := s.schedule.tail, loadable := false } (s.schedule.headD []) →
    e.pc.toNat ≤ 0xFFE →
    decode (e.byteAt e.pc.toNat ++ e.byteAt (e.pc.toNat + 1)) = .ok i →
    step s = exec i { e with pc := e.pc + 2 }

/-- A step that cannot fetch faults with the least address above `0xFFF` (the spec's decision D3), whatever the
schedule holds, and never wraps to address 0. -/
def Obligations.FetchPastEndFaults : Prop :=
  ∀ s : State, 0xFFE < s.pc.toNat →
    step s = .fault (.addressOutOfRange (if s.pc.toNat = 0xFFF then 0x1000 else s.pc.toNat))

/-- The status a cycle reports (the spec's decision D24): the fault with its code and value, `Unrecognized(w)`,
`AwaitingInput` for a keyless `Fx0A`, else `Executed`; every cycle reports one. The last three clauses are the table of
fault codes and recorded values (60_exceptions.md section 1, the spec's decision D15). -/
def Obligations.StatusOfEachCycle : Prop :=
  (∀ s : State, (∃ report, cycleStatus s = some report) ∧
    (∀ f, cycle s = .fault f → cycleStatus s = some (.fault (faultCode f) (faultInfo f))) ∧
    (∀ t w, cycle s = .next t → s.fetch = .ok w →
      cycleStatus s = some (match decode w with
        | .error _ => .unrecognized w
        | .ok (.ldVxK _) => if s.key = none then .awaitingInput else .executed
        | .ok _ => .executed))) ∧
  (∀ a, faultCode (.addressOutOfRange a) = 1 ∧ faultInfo (.addressOutOfRange a) = a) ∧
  (∀ depth, faultCode (.stackOverflow depth) = 2 ∧ faultInfo (.stackOverflow depth) = depth) ∧
  (∀ length, faultCode (.imageTooLarge length) = 3 ∧ faultInfo (.imageTooLarge length) = length)

/-- What lands between two steps changes `DT`, `ST` and `KEY` only, and neither timer rises. -/
def Obligations.BetweenStepsOnlyTimersAndKey : Prop :=
  ∀ (s : State) (events : List Event),
    UnchangedBut [] [.delay, .sound, .key] s (deliver s events) ∧
    (deliver s events).dt.toNat ≤ s.dt.toNat ∧ (deliver s events).st.toNat ≤ s.st.toNat

/-- Any number of events of either agent, in any order, before a step is a schedule of the machine: the step sees the
state they leave. -/
def Obligations.EveryScheduleReachesTheStep : Prop :=
  ∀ (s : State) (now : List Event) (later : List (List Event)),
    step { s with schedule := now :: later } = cycle (deliver { s with schedule := later, loadable := false } now)

/-! ### Control flow -/

/-- R71. -/
def Obligations.JumpSetsPc : Prop :=
  RowDecodesTo 0xF000 0x1000 (fun w => .jp (nnnField w)) ∧
  ∀ (nnn : Addr) (s : State), ∃ t, exec (.jp nnn) s = .next t ∧ t.pc.toNat = nnn.toNat ∧ UnchangedBut [] [.pc] s t

/-- `2nnn`: the current `pc` is pushed and `pc` becomes `nnn`, unless a finite `STACK_DEPTH` (the spec's decision D8)
is reached, and then the fault `StackOverflow` carries the depth. -/
def Obligations.CallPushesReturnAddress : Prop :=
  RowDecodesTo 0xF000 0x2000 (fun w => .call (nnnField w)) ∧
  ∀ (nnn : Addr) (s : State),
    if s.params.stackDepth = some s.stack.length then
      exec (.call nnn) s = .fault (.stackOverflow s.stack.length)
    else ∃ t, exec (.call nnn) s = .next t ∧ t.stack = s.pc :: s.stack ∧ t.pc.toNat = nnn.toNat ∧
      UnchangedBut [] [.pc, .stack] s t

/-- R73. -/
def Obligations.ReturnPopsOrDoesNothing : Prop :=
  RowDecodesTo 0xFFFF 0x00EE (fun _ => .ret) ∧
  ∀ s : State, ∃ t, exec .ret s = .next t ∧
    (match s.stack with
      | [] => t.pc = s.pc ∧ t.stack = []
      | top :: rest => t.pc = top ∧ t.stack = rest) ∧
    UnchangedBut [] [.pc, .stack] s t ∧ completionStatus .ret s = .executed

/-- A call that does not overflow, followed by a return, gives back the very state before the call: execution goes on
at the word after the call. -/
def Obligations.ReturnUndoesCall : Prop :=
  ∀ (nnn : Addr) (s : State), s.params.stackDepth ≠ some s.stack.length →
    ∃ t, exec (.call nnn) s = .next t ∧ exec .ret t = .next s

/-- `Bnnn`: the sum `nnn + V0` is not reduced to 12 bits (the spec's decision D23). -/
def Obligations.ComputedJumpAddsV0 : Prop :=
  RowDecodesTo 0xF000 0xB000 (fun w => .jpV0 (nnnField w)) ∧
  ∀ (nnn : Addr) (s : State), ∃ t, exec (.jpV0 nnn) s = .next t ∧
    t.pc.toNat = nnn.toNat + (s.reg 0).toNat ∧ UnchangedBut [] [.pc] s t

/-- R75, R76. -/
def Obligations.ImmediateSkips : Prop :=
  RowDecodesTo 0xF000 0x3000 (fun w => .seImm (xField w) (nnField w)) ∧
  RowDecodesTo 0xF000 0x4000 (fun w => .sneImm (xField w) (nnField w)) ∧
  ∀ (x : Reg) (nn : Byte) (s : State),
    (∃ t, exec (.seImm x nn) s = .next t ∧
      t.pc = (if s.reg x = nn then s.pc + 2 else s.pc) ∧ UnchangedBut [] [.pc] s t) ∧
    (∃ t, exec (.sneImm x nn) s = .next t ∧
      t.pc = (if s.reg x ≠ nn then s.pc + 2 else s.pc) ∧ UnchangedBut [] [.pc] s t)

/-- R77, R78. -/
def Obligations.RegisterSkips : Prop :=
  RowDecodesTo 0xF00F 0x5000 (fun w => .seReg (xField w) (yField w)) ∧
  RowDecodesTo 0xF00F 0x9000 (fun w => .sneReg (xField w) (yField w)) ∧
  ∀ (x y : Reg) (s : State),
    (∃ t, exec (.seReg x y) s = .next t ∧
      t.pc = (if s.reg x = s.reg y then s.pc + 2 else s.pc) ∧ UnchangedBut [] [.pc] s t) ∧
    (∃ t, exec (.sneReg x y) s = .next t ∧
      t.pc = (if s.reg x ≠ s.reg y then s.pc + 2 else s.pc) ∧ UnchangedBut [] [.pc] s t)

/-! ### Register ALU -/

/-- R91, R92: no flag effect, `VF` written only when it is the destination. -/
def Obligations.ImmediateLoadAndAdd : Prop :=
  RowDecodesTo 0xF000 0x6000 (fun w => .ldImm (xField w) (nnField w)) ∧
  RowDecodesTo 0xF000 0x7000 (fun w => .addImm (xField w) (nnField w)) ∧
  ∀ (x : Reg) (nn : Byte) (s : State),
    (∃ t, exec (.ldImm x nn) s = .next t ∧ t.reg x = nn ∧ UnchangedBut [x] [] s t) ∧
    (∃ t, exec (.addImm x nn) s = .next t ∧
      (t.reg x).toNat = ((s.reg x).toNat + nn.toNat) % 256 ∧ UnchangedBut [x] [] s t)

/-- R93, R95, R96. -/
def Obligations.CopyAndXor : Prop :=
  RowDecodesTo 0xF00F 0x8000 (fun w => .ldReg (xField w) (yField w)) ∧
  RowDecodesTo 0xF00F 0x8002 (fun w => .andReg (xField w) (yField w)) ∧
  RowDecodesTo 0xF00F 0x8003 (fun w => .xorReg (xField w) (yField w)) ∧
  ∀ (x y : Reg) (s : State),
    (∃ t, exec (.ldReg x y) s = .next t ∧ t.reg x = s.reg y ∧ UnchangedBut [x] [] s t) ∧
    (∃ t, exec (.andReg x y) s = .next t ∧ t.reg x = s.reg x &&& s.reg y ∧ UnchangedBut [x] [] s t) ∧
    (∃ t, exec (.xorReg x y) s = .next t ∧ t.reg x = s.reg x ^^^ s.reg y ∧ UnchangedBut [x] [] s t)

/-- `8xy1`; that `VF` is neither cleared nor set is the spec's decision D25. -/
def Obligations.OrLeavesFlag : Prop :=
  RowDecodesTo 0xF00F 0x8001 (fun w => .orReg (xField w) (yField w)) ∧
  ∀ (x y : Reg) (s : State),
    ∃ t, exec (.orReg x y) s = .next t ∧ t.reg x = s.reg x ||| s.reg y ∧ UnchangedBut [x] [] s t

/-- R97: the flag is written last, so with `x = 0xF` it is what `VF` ends as. -/
def Obligations.AddWithCarry : Prop :=
  RowDecodesTo 0xF00F 0x8004 (fun w => .addReg (xField w) (yField w)) ∧
  ∀ (x y : Reg) (s : State), ∃ t, exec (.addReg x y) s = .next t ∧
    (x ≠ 0xF → (t.reg x).toNat = ((s.reg x).toNat + (s.reg y).toNat) % 256) ∧
    t.reg 0xF = (if 255 < (s.reg x).toNat + (s.reg y).toNat then 1 else 0) ∧
    UnchangedBut [x, 0xF] [] s t

/-- R98, R100: strict comparison of the old values, so equal operands give flag 0. -/
def Obligations.SubtractBothWays : Prop :=
  RowDecodesTo 0xF00F 0x8005 (fun w => .subReg (xField w) (yField w)) ∧
  RowDecodesTo 0xF00F 0x8007 (fun w => .subn (xField w) (yField w)) ∧
  ∀ (x y : Reg) (s : State),
    (∃ t, exec (.subReg x y) s = .next t ∧
      (x ≠ 0xF → (t.reg x).toNat = ((s.reg x).toNat + 256 - (s.reg y).toNat) % 256) ∧
      t.reg 0xF = (if (s.reg y).toNat < (s.reg x).toNat then 1 else 0) ∧ UnchangedBut [x, 0xF] [] s t) ∧
    (∃ t, exec (.subn x y) s = .next t ∧
      (x ≠ 0xF → (t.reg x).toNat = ((s.reg y).toNat + 256 - (s.reg x).toNat) % 256) ∧
      t.reg 0xF = (if (s.reg x).toNat < (s.reg y).toNat then 1 else 0) ∧ UnchangedBut [x, 0xF] [] s t)

/-- R99, R101: `V[x]` is shifted in place, for every `y`; the flag is the bit shifted out. -/
def Obligations.ShiftsInPlace : Prop :=
  RowDecodesTo 0xF00F 0x8006 (fun w => .shr (xField w) (yField w)) ∧
  RowDecodesTo 0xF00F 0x800E (fun w => .shl (xField w) (yField w)) ∧
  ∀ (x y : Reg) (s : State),
    (∃ t, exec (.shr x y) s = .next t ∧ (x ≠ 0xF → (t.reg x).toNat = (s.reg x).toNat / 2) ∧
      t.reg 0xF = (if (s.reg x).toNat % 2 = 1 then 1 else 0) ∧ UnchangedBut [x, 0xF] [] s t) ∧
    (∃ t, exec (.shl x y) s = .next t ∧ (x ≠ 0xF → (t.reg x).toNat = (s.reg x).toNat * 2 % 256) ∧
      t.reg 0xF = (if 128 ≤ (s.reg x).toNat then 1 else 0) ∧ UnchangedBut [x, 0xF] [] s t)

/-- `Cxnn`: the draw is under no law (the spec's decision D18), so the register gets some byte AND `nn`, and the next
execution uses a later draw. -/
def Obligations.RandomIsMaskedDraw : Prop :=
  RowDecodesTo 0xF000 0xC000 (fun w => .rnd (xField w) (nnField w)) ∧
  ∀ (x : Reg) (nn : Byte) (s : State), ∃ t, exec (.rnd x nn) s = .next t ∧
    t.reg x = Config.randomByte s.draws &&& nn ∧ t.draws = s.draws + 1 ∧ UnchangedBut [x] [.draws] s t

/-! ### Index register, loads and stores -/

/-- R110. -/
def Obligations.LoadIndex : Prop :=
  RowDecodesTo 0xF000 0xA000 (fun w => .ldI (nnnField w)) ∧
  ∀ (nnn : Addr) (s : State), ∃ t, exec (.ldI nnn) s = .next t ∧ t.i.toNat = nnn.toNat ∧ UnchangedBut [] [.index] s t

/-- `Fx1E`: the sum is kept modulo 2^16 and the flag looks at the sum before that (the spec's decision D7); the flag
is written last. -/
def Obligations.AddToIndex : Prop :=
  RowDecodesTo 0xF0FF 0xF01E (fun w => .addI (xField w)) ∧
  ∀ (x : Reg) (s : State), ∃ t, exec (.addI x) s = .next t ∧
    t.i.toNat = (s.i.toNat + (s.reg x).toNat) % 65536 ∧
    t.reg 0xF = (if 0xFFF < s.i.toNat + (s.reg x).toNat then 1 else 0) ∧ UnchangedBut [0xF] [.index] s t

/-- `Fx29`: with the stride 5 of every rule (the spec's decision D6), and with the alternative value 1 of the optional
parameter `FONT_STRIDE` (R6, U14); `vx` is not masked. -/
def Obligations.LoadGlyphAddress : Prop :=
  RowDecodesTo 0xF0FF 0xF029 (fun w => .ldF (xField w)) ∧
  ∀ (x : Reg) (s : State), ∃ t, exec (.ldF x) s = .next t ∧
    t.i.toNat = (match s.params.fontStride with
      | .five => 0x050 + 5 * (s.reg x).toNat
      | .one => 0x050 + (s.reg x).toNat) ∧
    UnchangedBut [] [.index] s t

/-- R32: after reset, `Fx29` of a hexadecimal digit points at its glyph, and the 5 bytes there are the font's. -/
def Obligations.GlyphOfDigitAfterReset : Prop :=
  ∀ (p : Params) (x : Reg) (d k : Nat), p.fontStride = .five → d < 16 → (hk : k < 5) →
    ∃ t, exec (.ldF x) ((State.resetWith p).setReg x (BitVec.ofNat 8 d)) = .next t ∧
      t.i.toNat = 0x050 + 5 * d ∧ t.byteAt (t.i.toNat + k) = p.font[5 * d + k]?.getD 0

/-- `Fx33`: the three decimal digits, each in its own byte. The bounds fault is the spec's policy (decisions D3,
D4); on it nothing is written, since no state is handed on. -/
def Obligations.StoreDecimalDigits : Prop :=
  RowDecodesTo 0xF0FF 0xF033 (fun w => .ldB (xField w)) ∧
  ∀ (x : Reg) (s : State),
    if 0xFFF < s.i.toNat + 2 then exec (.ldB x) s = .fault (.addressOutOfRange (max s.i.toNat 0x1000))
    else ∃ t, exec (.ldB x) s = .next t ∧
      (t.byteAt s.i.toNat).toNat = (s.reg x).toNat / 100 ∧
      (t.byteAt (s.i.toNat + 1)).toNat = (s.reg x).toNat / 10 % 10 ∧
      (t.byteAt (s.i.toNat + 2)).toNat = (s.reg x).toNat % 10 ∧
      MemoryKeptOutside s.i.toNat 3 s t ∧ UnchangedBut [] [.memory] s t

/-- `Fx55`: `V[k]` goes to `I + k` for `k` up to `x`, and `I` is unchanged (decision D25); bounds as decisions D3, D4. -/
def Obligations.StoreRegistersThroughX : Prop :=
  RowDecodesTo 0xF0FF 0xF055 (fun w => .storeRegs (xField w)) ∧
  ∀ (x : Reg) (s : State),
    if 0xFFF < s.i.toNat + x.val then exec (.storeRegs x) s = .fault (.addressOutOfRange (max s.i.toNat 0x1000))
    else ∃ t, exec (.storeRegs x) s = .next t ∧ (∀ k : Reg, k ≤ x → t.byteAt (s.i.toNat + k.val) = s.reg k) ∧
      MemoryKeptOutside s.i.toNat (x.val + 1) s t ∧ UnchangedBut [] [.memory] s t

/-- `Fx65`: `V[k]` comes from `I + k` for `k` up to `x`, and `I` is unchanged (decision D25); bounds as decisions D3,
D4. -/
def Obligations.LoadRegistersThroughX : Prop :=
  RowDecodesTo 0xF0FF 0xF065 (fun w => .loadRegs (xField w)) ∧
  ∀ (x : Reg) (s : State),
    if 0xFFF < s.i.toNat + x.val then exec (.loadRegs x) s = .fault (.addressOutOfRange (max s.i.toNat 0x1000))
    else ∃ t, exec (.loadRegs x) s = .next t ∧
      (∀ k : Reg, k ≤ x → t.reg k = s.byteAt (s.i.toNat + k.val)) ∧
      (∀ k : Reg, x < k → t.reg k = s.reg k) ∧
      UnchangedBut ((List.finRange 16).filter (fun k => decide (k ≤ x))) [] s t

/-- What `Fx55` and `Fx33` store into either byte of the word at `pc` is what the next fetch reads, and a byte of the
word that they do not store to is fetched as it was: for every `x` and every overlap, one byte of the word included. -/
def Obligations.FetchSeesTheStore : Prop :=
  ∀ (x : Reg) (s t : State), s.pc.toNat ≤ 0xFFE →
    (exec (.storeRegs x) s = .next t →
      ∃ hi lo, t.fetch = .ok (hi ++ lo) ∧ ∀ cell ∈ [(s.pc.toNat, hi), (s.pc.toNat + 1, lo)],
        (∀ k : Reg, k ≤ x → cell.1 = s.i.toNat + k.val → cell.2 = s.reg k) ∧
        (cell.1 < s.i.toNat ∨ s.i.toNat + x.val < cell.1 → cell.2 = s.byteAt cell.1)) ∧
    (exec (.ldB x) s = .next t →
      ∃ hi lo, t.fetch = .ok (hi ++ lo) ∧ ∀ cell ∈ [(s.pc.toNat, hi), (s.pc.toNat + 1, lo)],
        (cell.1 = s.i.toNat → cell.2.toNat = (s.reg x).toNat / 100) ∧
        (cell.1 = s.i.toNat + 1 → cell.2.toNat = (s.reg x).toNat / 10 % 10) ∧
        (cell.1 = s.i.toNat + 2 → cell.2.toNat = (s.reg x).toNat % 10) ∧
        (cell.1 < s.i.toNat ∨ s.i.toNat + 2 < cell.1 → cell.2 = s.byteAt cell.1))

/-! ### Display -/

/-- R120. -/
def Obligations.ClearScreen : Prop :=
  RowDecodesTo 0xFFFF 0x00E0 (fun _ => .cls) ∧
  ∀ s : State, ∃ t, exec .cls s = .next t ∧ (∀ r c, t.fb.cell r c = false) ∧ UnchangedBut [] [.display] s t

/-- `Dxyn`, cell by cell: only the origin wraps; a cell is flipped exactly when a drawn sprite pixel of bit 1 targets
it; `VF` tells whether such a cell was 1. That clipped rows are not read and so cannot fault is the spec's decision
D10, the bounds fault D3 and D4. -/
def Obligations.DrawXorsClippedSprite : Prop :=
  RowDecodesTo 0xF000 0xD000 (fun w => .drw (xField w) (yField w) (nField w)) ∧
  ∀ (x y : Reg) (n : Nibble) (s : State) (x0 y0 rows : Nat),
    x0 = (s.reg x).toNat % 64 → y0 = (s.reg y).toNat % 32 → rows = min n.toNat (32 - y0) →
    if 0 < rows ∧ 0xFFF < s.i.toNat + rows - 1 then
      exec (.drw x y n) s = .fault (.addressOutOfRange (max s.i.toNat 0x1000))
    else ∃ t, exec (.drw x y n) s = .next t ∧
      (∀ r c, r < 32 → c < 64 → t.fb.cell r c = (s.fb.cell r c != s.spriteBitAt x0 y0 rows r c)) ∧
      ((∃ r c, r < 32 ∧ c < 64 ∧ s.spriteBitAt x0 y0 rows r c = true ∧ s.fb.cell r c = true) → t.reg 0xF = 1) ∧
      ((∀ r c, r < 32 → c < 64 → s.spriteBitAt x0 y0 rows r c = true → s.fb.cell r c = false) → t.reg 0xF = 0) ∧
      UnchangedBut [0xF] [.display] s t

/-- Drawing the same sprite at the same place twice restores the framebuffer, and over a clear framebuffer the second
draw reports a collision when the drawn part has a 1 bit. -/
def Obligations.DrawTwiceRestores : Prop :=
  ∀ (x y : Reg) (n : Nibble) (s t : State),
    exec (.drw x y n) s = .next t → t.reg x = s.reg x → t.reg y = s.reg y →
    ∃ u, exec (.drw x y n) t = .next u ∧ u.fb = s.fb ∧
      (s.fb = Framebuffer.blank → t.fb ≠ s.fb → u.reg 0xF = 1)

/-! ### Keys, timers, sound -/

/-- `Ex9E` and `ExA1` compare the optional key with the whole byte `vx` (the spec's decision D12): no key down, or
`vx` above `0xF`, never equals; exactly one of the two skips. -/
def Obligations.KeySkips : Prop :=
  RowDecodesTo 0xF0FF 0xE09E (fun w => .skp (xField w)) ∧
  RowDecodesTo 0xF0FF 0xE0A1 (fun w => .sknp (xField w)) ∧
  ∀ (x : Reg) (s : State),
    (∃ t, exec (.skp x) s = .next t ∧
      t.pc = (if s.key.map Fin.val = some (s.reg x).toNat then s.pc + 2 else s.pc) ∧ UnchangedBut [] [.pc] s t) ∧
    (∃ t, exec (.sknp x) s = .next t ∧
      t.pc = (if s.key.map Fin.val = some (s.reg x).toNat then s.pc else s.pc + 2) ∧ UnchangedBut [] [.pc] s t)

/-- R132: with no key down `pc` goes back by 2, so that the cycle leaves the whole state as it was and reports
`AwaitingInput`; with a key down its number goes to `V[x]`, and the key stays. -/
def Obligations.KeyWait : Prop :=
  RowDecodesTo 0xF0FF 0xF00A (fun w => .ldVxK (xField w)) ∧
  ∀ (x : Reg) (s : State),
    (∃ t, exec (.ldVxK x) s = .next t ∧
      (match s.key with
        | none => t.pc = s.pc - 2 ∧ UnchangedBut [] [.pc] s t ∧ completionStatus (.ldVxK x) s = .awaitingInput
        | some k => (t.reg x).toNat = k.val ∧ UnchangedBut [x] [] s t ∧
            completionStatus (.ldVxK x) s = .executed)) ∧
    (∀ w, s.key = none → s.fetch = .ok w → decode w = .ok (.ldVxK x) →
      cycle s = .next s ∧ cycleStatus s = some .awaitingInput)

/-- R136, R137, and the effect of R135. -/
def Obligations.TimerInstructions : Prop :=
  RowDecodesTo 0xF0FF 0xF007 (fun w => .ldVxDT (xField w)) ∧
  RowDecodesTo 0xF0FF 0xF015 (fun w => .ldDTVx (xField w)) ∧
  RowDecodesTo 0xF0FF 0xF018 (fun w => .ldSTVx (xField w)) ∧
  ∀ (x : Reg) (s : State),
    (∃ t, exec (.ldVxDT x) s = .next t ∧ t.reg x = s.dt ∧ UnchangedBut [x] [] s t) ∧
    (∃ t, exec (.ldDTVx x) s = .next t ∧ t.dt = s.reg x ∧ UnchangedBut [] [.delay] s t) ∧
    (∃ t, exec (.ldSTVx x) s = .next t ∧ t.st = s.reg x ∧ soundActive t = (s.reg x != 0) ∧
      UnchangedBut [] [.sound] s t)

/-- R141, R142: each tick takes one off its own counter when that is above zero, and touches nothing else. -/
def Obligations.TicksCountDown : Prop :=
  ∀ s : State,
    (Event.apply s .delayTick).dt.toNat = (if 0 < s.dt.toNat then s.dt.toNat - 1 else 0) ∧
    UnchangedBut [] [.delay] s (Event.apply s .delayTick) ∧
    (Event.apply s .soundTick).st.toNat = (if 0 < s.st.toNat then s.st.toNat - 1 else 0) ∧
    UnchangedBut [] [.sound] s (Event.apply s .soundTick)

/-- R147, for every value written: after `Fx15`, each delay tick counts down by one and 0 is sticky. -/
def Obligations.DelayCountdown : Prop :=
  ∀ (x : Reg) (s : State) (k : Nat), ∃ t, exec (.ldDTVx x) s = .next t ∧
    (deliver t (List.replicate k .delayTick)).dt.toNat = (s.reg x).toNat - k ∧
    UnchangedBut [] [.delay] s (deliver t (List.replicate k .delayTick))

/-- R146: `sound_active` is 1 exactly when `ST` is not 0; it falls with the tick from 1 to 0, follows `Fx18` at once,
and no other event moves it; no event changes `pc`. -/
def Obligations.SoundOutput : Prop :=
  ∀ s : State, (soundActive s = true ↔ 0 < s.st.toNat) ∧
    (soundActive (Event.apply s .soundTick) = true ↔ 1 < s.st.toNat) ∧
    (∀ e, (e ≠ .soundTick → soundActive (Event.apply s e) = soundActive s) ∧ (Event.apply s e).pc = s.pc) ∧
    (∀ x, ∃ t, exec (.ldSTVx x) s = .next t ∧ (soundActive t = true ↔ 0 < (s.reg x).toNat))

/-- The key port sets the latch to what the host writes, a press overwriting the one before, and touches nothing
else. -/
def Obligations.KeyPortWritesLatch : Prop :=
  ∀ (s : State) (j k : Option Key),
    (Event.apply s (.keyPort k)).key = k ∧ UnchangedBut [] [.key] s (Event.apply s (.keyPort k)) ∧
    deliver s [.keyPort j, .keyPort k] = Event.apply s (.keyPort k)

/-! ### Faults -/

/-- Exactly when the execute phase faults, and with what: `AddressOutOfRange` of `Fx33`, `Fx55`, `Fx65`, `Dxyn` (the
spec's decisions D3, D4, D10), `StackOverflow` of `2nnn` (D8), no other instruction and no other fault. -/
def Obligations.FaultsAreTheListed : Prop :=
  ∀ (i : Instr) (s : State) (f : Fault), exec i s = .fault f ↔
    match i with
    | .call _ => s.params.stackDepth = some s.stack.length ∧ f = .stackOverflow s.stack.length
    | .ldB _ => 0xFFD < s.i.toNat ∧ f = .addressOutOfRange (max s.i.toNat 0x1000)
    | .storeRegs x => 0xFFF < s.i.toNat + x.val ∧ f = .addressOutOfRange (max s.i.toNat 0x1000)
    | .loadRegs x => 0xFFF < s.i.toNat + x.val ∧ f = .addressOutOfRange (max s.i.toNat 0x1000)
    | .drw _ y n => 0 < n.toNat ∧ 0xFFF < s.i.toNat + min n.toNat (32 - (s.reg y).toNat % 32) - 1 ∧
        f = .addressOutOfRange (max s.i.toNat 0x1000)
    | _ => False

/-- No step and no instruction is ever refused. -/
def Obligations.NothingIsRefused : Prop :=
  (∀ (i : Instr) (s : State) (r : Refusal), exec i s ≠ .refused r) ∧
  (∀ (s : State) (r : Refusal), step s ≠ .refused r)

/-- A faulted request leaves every piece of state as it was but for what landed before it: `pc` still at the faulting
instruction, nothing written (the spec's decisions D3, D4, D22). -/
def Obligations.FaultIsPrecise : Prop :=
  ∀ (s : State) (f : Fault), step s = .fault f →
    (request s).2 = some (.fault (faultCode f) (faultInfo f)) ∧
    (request s).1 = { deliver { s with schedule := s.schedule.tail } (s.schedule.headD []) with loadable := false }

/-- After a fault a continuing host gets the same fault again, whatever ticks and keys come in between (the spec's
decision D22). -/
def Obligations.FaultRepeats : Prop :=
  ∀ (s : State) (f : Fault) (events : List Event) (later : List (List Event)), step s = .fault f →
    step { deliver (request s).1 events with schedule := later } = .fault f

/-! ### Reset, load, end of a run -/

/-- The state after reset (the spec's decisions D1 and D11 for `pc` and `KEY`, D19 for the font bytes), for every value
of the parameters. -/
def Obligations.ResetState : Prop :=
  State.reset.pc = 0x200 ∧
  ∀ p : Params, (State.resetWith p).params = p ∧ (State.resetWith p).pc = p.resetPc ∧
    (∀ r, (State.resetWith p).reg r = 0) ∧ (State.resetWith p).i = 0 ∧ (State.resetWith p).stack = [] ∧
    (State.resetWith p).dt = 0 ∧ (State.resetWith p).st = 0 ∧ soundActive (State.resetWith p) = false ∧
    (∀ r c, framebufferPort (State.resetWith p) r c = false) ∧ (State.resetWith p).key = none ∧
    (∀ a, (State.resetWith p).byteAt a =
      if 0x050 ≤ a ∧ a ≤ 0x09F then p.font[a - 0x050]?.getD 0 else 0)

/-- Reset asserted at any time, after a fault or mid-run, discards every piece of architectural state: it leaves what
reset leaves (decisions D1, D11, D19 as in `ResetState`), the parameters unchanged; that what is outside the block is
kept is log entry 12's choice. -/
def Obligations.ResetDiscardsEverything : Prop :=
  ∀ s : State, (assertReset s).pc = s.params.resetPc ∧ (∀ r, (assertReset s).reg r = 0) ∧ (assertReset s).i = 0 ∧
    (assertReset s).stack = [] ∧ (assertReset s).dt = 0 ∧ (assertReset s).st = 0 ∧
    (∀ r c, framebufferPort (assertReset s) r c = false) ∧ (assertReset s).key = none ∧
    (∀ a, (assertReset s).byteAt a =
      if 0x050 ≤ a ∧ a ≤ 0x09F then s.params.font[a - 0x050]?.getD 0 else 0) ∧
    (assertReset s).loadable = true ∧ (assertReset s).params = s.params ∧ (assertReset s).draws = s.draws ∧
    (assertReset s).schedule = s.schedule

/-- An image of at most 3584 bytes on an open load port is copied to `0x200` onward, and nothing else of the machine
changes. The size limit is the spec's decision D16; that a flag says whether the port is open, and that it is closed
after the load, is log entry 11's choice. -/
def Obligations.LoadCopiesImage : Prop :=
  ∀ (s : State) (image : List Byte), s.loadable = true → image.length ≤ 3584 →
    ∃ t, loadPort image s = .next t ∧
      (∀ k (h : k < image.length), t.byteAt (0x200 + k) = image[k]) ∧
      MemoryKeptOutside 0x200 image.length s t ∧ t.loadable = false ∧
      UnchangedBut [] [.memory] s { t with loadable := s.loadable }

/-- Reset, load, step: the first step of a loaded program runs the word of its first two bytes, high byte first, from
`0x200` (the spec's decision D1; parameters with the default `RESET_PC`). That nothing lands before that step is log
entry 2's choice, that reset leaves the load port open log entry 11's. -/
def Obligations.FirstStepRunsLoadedWord : Prop :=
  ∀ (p : Params) (hi lo : Byte) (rest : List Byte) (i : Instr), p.resetPc = 0x200 → rest.length ≤ 3582 →
    decode (hi ++ lo) = .ok i →
    ∃ t, loadPort (hi :: lo :: rest) (State.resetWith p) = .next t ∧ t.pc = 0x200 ∧
      step t = exec i { t with pc := 0x202 }

/-- The load port refuses a second load and a load after a step, and too long an image faults with its length and
writes nothing (the spec's decision D16; that the first is a refusal is log entry 11's choice). -/
def Obligations.LoadOnlyOnceAndOnlyIfItFits : Prop :=
  ∀ (s t : State) (image other : List Byte),
    (s.loadable = true → 3584 < image.length → loadPort image s = .fault (.imageTooLarge image.length)) ∧
    (loadPort image s = .next t → loadPort other t = .refused .loadPortClosed) ∧
    (step s = .next t → loadPort other t = .refused .loadPortClosed)

/-- A state whose next word is a jump to itself is a fixed point of the cycle (the spec's definition D21). -/
def Obligations.TerminalIsFixedPoint : Prop :=
  ∀ s : State, terminal s = true → cycle s = .next s ∧ cycleStatus s = some .executed

/-! ### Whole-machine rules -/

/-- Who writes what: no instruction writes `KEY`, a parameter, the events to come or the load port; each other piece of
state, the general registers first, is written only by the instructions 10_state.md lists for it, and a writer of
general registers touches only `Vx`, only `VF`, only these two, or only `V0` to `Vx`. -/
def Obligations.EachPartHasItsWriters : Prop :=
  ∀ (i : Instr) (s t : State), exec i s = .next t →
    (match i with
      | .ldImm x _ | .addImm x _ | .ldReg x _ | .orReg x _ | .andReg x _ | .xorReg x _ | .rnd x _ | .ldVxDT x
      | .ldVxK x => ∀ r, r ≠ x → t.reg r = s.reg r
      | .addReg x _ | .subReg x _ | .shr x _ | .subn x _ | .shl x _ => ∀ r, r ≠ x → r ≠ 0xF → t.reg r = s.reg r
      | .drw _ _ _ | .addI _ => ∀ r, r ≠ 0xF → t.reg r = s.reg r
      | .loadRegs x => ∀ r, x < r → t.reg r = s.reg r
      | _ => ∀ r, t.reg r = s.reg r) ∧
    t.key = s.key ∧ t.params = s.params ∧ t.schedule = s.schedule ∧ t.loadable = s.loadable ∧
    (match i with | .call _ | .ret => True | _ => t.stack = s.stack) ∧
    (match i with | .ldI _ | .addI _ | .ldF _ => True | _ => t.i = s.i) ∧
    (match i with | .cls | .drw _ _ _ => True | _ => t.fb = s.fb) ∧
    (match i with | .ldB _ | .storeRegs _ => True | _ => ∀ a, t.byteAt a = s.byteAt a) ∧
    (match i with | .ldDTVx _ => True | _ => t.dt = s.dt) ∧
    (match i with | .ldSTVx _ => True | _ => t.st = s.st) ∧
    (match i with | .rnd _ _ => True | _ => t.draws = s.draws) ∧
    (match i with
      | .jp _ | .call _ | .ret | .jpV0 _ | .seImm _ _ | .sneImm _ _ | .seReg _ _ | .sneReg _ _ | .skp _ | .sknp _
      | .ldVxK _ => True
      | _ => t.pc = s.pc)

/-- The instructions that define flag output leave 0 or 1 in `VF`; every other one leaves `VF` alone unless `VF` is
its destination. -/
def Obligations.FlagRegisterDiscipline : Prop :=
  ∀ (i : Instr) (s t : State), exec i s = .next t →
    match i with
    | .addReg _ _ | .subReg _ _ | .shr _ _ | .subn _ _ | .shl _ _ | .drw _ _ _ | .addI _ =>
        t.reg 0xF = 0 ∨ t.reg 0xF = 1
    | .ldImm x _ | .addImm x _ | .ldReg x _ | .orReg x _ | .andReg x _ | .xorReg x _ | .rnd x _ | .ldVxDT x
    | .ldVxK x | .loadRegs x => x ≠ 0xF → t.reg 0xF = s.reg 0xF
    | _ => t.reg 0xF = s.reg 0xF

/-- `ST` is not readable by any instruction, and `KEY` only by `Ex9E`, `ExA1` and `Fx0A`: a change of `ST`, and for
every other instruction of `KEY`, changes nothing else of what the instruction does. -/
def Obligations.SoundAndKeyAreNotRead : Prop :=
  ∀ (i : Instr) (s : State) (b : Byte) (k : Option Key) (s' : State),
    s' = { s with st := b, key := match i with | .skp _ | .sknp _ | .ldVxK _ => s.key | _ => k } →
    (∀ f, exec i s = .fault f → exec i s' = .fault f) ∧
    (∀ t, exec i s = .next t → ∃ t', exec i s' = .next t' ∧
      t' = { t with st := t'.st, key := s'.key } ∧ (t'.st = t.st ∨ t'.st = b))

/-- The invariant holds after reset, for every value of the parameters whose `RESET_PC` is at most `0x10FE`. -/
def Obligations.ResetMeetsInvariant : Prop :=
  State.reset.Inv ∧ ∀ p : Params, p.resetPc.toNat ≤ 0x10FE → (State.resetWith p).Inv

/-- Every step keeps the invariant: memory stays in canonical form, a finite stack is never overfull, return addresses
stay at most `0x1000` and `pc` at most `0x10FE`. -/
def Obligations.StepKeepsInvariant : Prop :=
  ∀ s t : State, s.Inv → step s = .next t → t.Inv

/-- The host's other moves keep the invariant too: events between steps, the load port, and reset. -/
def Obligations.HostMovesKeepInvariant : Prop :=
  ∀ (s t : State) (events : List Event) (image : List Byte), s.Inv →
    (deliver s events).Inv ∧ (loadPort image s = .next t → t.Inv) ∧
    (s.params.resetPc.toNat ≤ 0x10FE → (assertReset s).Inv)
end

