-- ==== Sys2Proof/Laws/Decode.lean ====
section
/-! SUPPORT. What the word fields and the formats do to each other (30_encoding.md R51, R52), said once, so that no
proof about an encoding goes back to bits. -/

namespace Sys2Proof

/-! ### Fields and formats as numbers -/

theorem opField_toNat (w : Word) : (opField w).toNat = w.toNat / 4096 % 16 := by
  simp [opField, BitVec.extractLsb'_toNat, Nat.shiftRight_eq_div_pow]

theorem xField_val (w : Word) : (xField w).val = w.toNat / 256 % 16 := by
  simp [xField, Nat.shiftRight_eq_div_pow]

theorem yField_val (w : Word) : (yField w).val = w.toNat / 16 % 16 := by
  simp [yField, Nat.shiftRight_eq_div_pow]

theorem nField_toNat (w : Word) : (nField w).toNat = w.toNat % 16 := by
  simp [nField, BitVec.extractLsb'_toNat]

theorem nnField_toNat (w : Word) : (nnField w).toNat = w.toNat % 256 := by
  simp [nnField, BitVec.extractLsb'_toNat]

theorem nnnField_toNat (w : Word) : (nnnField w).toNat = w.toNat % 4096 := by
  simp [nnnField, BitVec.extractLsb'_toNat]

theorem toNat_append {n m : Nat} (a : BitVec n) (b : BitVec m) : (a ++ b).toNat = a.toNat * 2 ^ m + b.toNat := by
  rw [BitVec.toNat_append, ← Nat.shiftLeft_add_eq_or_of_lt b.isLt, Nat.shiftLeft_eq]

theorem formatXY_toNat (op : Nibble) (x y : Reg) (n : Nibble) :
    (formatXY op x y n).toNat = op.toNat * 4096 + x.val * 256 + y.val * 16 + n.toNat := by
  unfold formatXY
  rw [toNat_append (op ++ (BitVec.ofFin x : Nibble) ++ (BitVec.ofFin y : Nibble)) n, toNat_append, toNat_append]
  simp; omega

theorem formatXI_toNat (op : Nibble) (x : Reg) (nn : Byte) :
    (formatXI op x nn).toNat = op.toNat * 4096 + x.val * 256 + nn.toNat := by
  unfold formatXI
  rw [toNat_append (op ++ (BitVec.ofFin x : Nibble)) nn, toNat_append]
  simp; omega

theorem formatA_toNat (op : Nibble) (nnn : Addr) : (formatA op nnn).toNat = op.toNat * 4096 + nnn.toNat := by
  unfold formatA
  rw [toNat_append op nnn]; rfl

/-! ### Fields of a word laid out in a format -/

theorem opField_formatXY (op : Nibble) (x y : Reg) (n : Nibble) : opField (formatXY op x y n) = op := by
  apply BitVec.eq_of_toNat_eq
  rw [opField_toNat, formatXY_toNat]; omega

theorem xField_formatXY (op : Nibble) (x y : Reg) (n : Nibble) : xField (formatXY op x y n) = x := by
  apply Fin.ext
  rw [xField_val, formatXY_toNat]; omega

theorem yField_formatXY (op : Nibble) (x y : Reg) (n : Nibble) : yField (formatXY op x y n) = y := by
  apply Fin.ext
  rw [yField_val, formatXY_toNat]; omega

theorem nField_formatXY (op : Nibble) (x y : Reg) (n : Nibble) : nField (formatXY op x y n) = n := by
  apply BitVec.eq_of_toNat_eq
  rw [nField_toNat, formatXY_toNat]; omega

theorem opField_formatXI (op : Nibble) (x : Reg) (nn : Byte) : opField (formatXI op x nn) = op := by
  apply BitVec.eq_of_toNat_eq
  rw [opField_toNat, formatXI_toNat]; omega

theorem xField_formatXI (op : Nibble) (x : Reg) (nn : Byte) : xField (formatXI op x nn) = x := by
  apply Fin.ext
  rw [xField_val, formatXI_toNat]; omega

theorem nnField_formatXI (op : Nibble) (x : Reg) (nn : Byte) : nnField (formatXI op x nn) = nn := by
  apply BitVec.eq_of_toNat_eq
  rw [nnField_toNat, formatXI_toNat]; omega

theorem opField_formatA (op : Nibble) (nnn : Addr) : opField (formatA op nnn) = op := by
  apply BitVec.eq_of_toNat_eq
  rw [opField_toNat, formatA_toNat]; omega

theorem nnnField_formatA (op : Nibble) (nnn : Addr) : nnnField (formatA op nnn) = nnn := by
  apply BitVec.eq_of_toNat_eq
  rw [nnnField_toNat, formatA_toNat]; omega

/-! ### A word is made of its fields, in each format -/

theorem formatXY_fields (w : Word) : formatXY (opField w) (xField w) (yField w) (nField w) = w := by
  apply BitVec.eq_of_toNat_eq
  rw [formatXY_toNat, opField_toNat, xField_val, yField_val, nField_toNat]; omega

theorem formatXI_fields (w : Word) : formatXI (opField w) (xField w) (nnField w) = w := by
  apply BitVec.eq_of_toNat_eq
  rw [formatXI_toNat, opField_toNat, xField_val, nnField_toNat]; omega

theorem formatA_fields (w : Word) : formatA (opField w) (nnnField w) = w := by
  apply BitVec.eq_of_toNat_eq
  rw [formatA_toNat, opField_toNat, nnnField_toNat]; omega

/-- The two bytes of a word make the word (20_memory.md R34). -/
theorem wordOfBytes_bytes (w : Word) : wordOfBytes (highByte w) (lowByte w) = w := by
  apply BitVec.eq_of_toNat_eq
  rw [wordOfBytes, toNat_append (highByte w) (lowByte w)]
  simp [highByte, lowByte, BitVec.extractLsb'_toNat, Nat.shiftRight_eq_div_pow]; omega

theorem formatXY_eq_iff (op op' : Nibble) (x x' y y' : Reg) (n n' : Nibble) :
    formatXY op x y n = formatXY op' x' y' n' ↔ op = op' ∧ x = x' ∧ y = y' ∧ n = n' := by
  constructor
  · intro h
    exact ⟨by simpa [opField_formatXY] using congrArg opField h, by simpa [xField_formatXY] using congrArg xField h,
      by simpa [yField_formatXY] using congrArg yField h, by simpa [nField_formatXY] using congrArg nField h⟩
  · rintro ⟨rfl, rfl, rfl, rfl⟩; rfl

/-! ### The table's masks pick out fields -/

theorem formatXY_and (op op' : Nibble) (x x' y y' : Reg) (n n' : Nibble) :
    formatXY op x y n &&& formatXY op' x' y' n' =
      formatXY (op &&& op') ((BitVec.ofFin x &&& BitVec.ofFin x' : Nibble).toFin)
        ((BitVec.ofFin y &&& BitVec.ofFin y' : Nibble).toFin) (n &&& n') := by
  unfold formatXY
  exact (BitVec.and_append (w := 12) (v := 4)).trans
    (congrArg (· ++ (n &&& n')) ((BitVec.and_append (w := 8) (v := 4)).trans
      (congrArg (· ++ _) (BitVec.and_append (w := 4) (v := 4)))))

/-- Mask `0xF000`: the opcode nibble. -/
theorem and_F000_iff (w : Word) (k : Nibble) : w &&& 0xF000 = formatXY k 0 0 0 ↔ opField w = k := by
  conv_lhs => rw [← formatXY_fields w, show (0xF000 : Word) = formatXY 0xF 0 0 0 from rfl, formatXY_and]
  rw [formatXY_eq_iff]
  have h : ∀ a : Nibble, a &&& 15#4 = a := by decide
  simp [h]

/-- Mask `0xF00F`: the opcode nibble and the low nibble. -/
theorem and_F00F_iff (w : Word) (k j : Nibble) :
    w &&& 0xF00F = formatXY k 0 0 j ↔ opField w = k ∧ nField w = j := by
  conv_lhs => rw [← formatXY_fields w, show (0xF00F : Word) = formatXY 0xF 0 0 0xF from rfl, formatXY_and]
  rw [formatXY_eq_iff]
  have h : ∀ a : Nibble, a &&& 15#4 = a := by decide
  simp [h]

/-- The low byte is the `y` field and the low nibble. -/
theorem nnField_eq_iff (w : Word) (nn : Byte) :
    nnField w = nn ↔ (yField w).val = nn.toNat / 16 ∧ (nField w).toNat = nn.toNat % 16 := by
  rw [← BitVec.toNat_inj, nnField_toNat, yField_val, nField_toNat]
  have := nn.isLt
  omega

/-- Mask `0xF0FF`: the opcode nibble and the low byte. -/
theorem and_F0FF_iff (w : Word) (k : Nibble) (nn : Byte) :
    w &&& 0xF0FF = formatXI k 0 nn ↔ opField w = k ∧ nnField w = nn := by
  have hb : formatXI k 0 nn = formatXY k 0 ⟨nn.toNat / 16, by have := nn.isLt; omega⟩ (BitVec.ofNat 4 nn.toNat) := by
    apply BitVec.eq_of_toNat_eq
    rw [formatXI_toNat, formatXY_toNat]
    simp; omega
  conv_lhs => rw [← formatXY_fields w, show (0xF0FF : Word) = formatXY 0xF 0 15 0xF from rfl, formatXY_and, hb]
  rw [formatXY_eq_iff, nnField_eq_iff]
  have h : ∀ a : Nibble, a &&& 15#4 = a := by decide
  have hx : ∀ a : Reg, (BitVec.ofFin a &&& BitVec.ofFin 0 : Nibble).toFin = 0 := by decide
  have hy : ∀ a : Reg, (BitVec.ofFin a &&& BitVec.ofFin 15 : Nibble).toFin = a := by decide
  rw [hx, hy, show opField w &&& 0xF = opField w from h _, show nField w &&& 0xF = nField w from h _,
    Fin.ext_iff, Fin.ext_iff, ← BitVec.toNat_inj (x := nField w)]
  simp

/-- Mask `0xFFFF`: the whole word. -/
theorem and_FFFF_iff (w p : Word) : w &&& 0xFFFF = p ↔ w = p := by
  rw [show (0xFFFF : Word) = BitVec.allOnes 16 from rfl, BitVec.and_allOnes]

/-! ### What decoding can answer -/

/-- The instruction of a word by its fields: the decoding procedure of R54 as a relation. -/
def Instr.IsOf (w : Word) : Instr → Prop
  | .cls => w = 0x00E0
  | .ret => w = 0x00EE
  | .jp nnn => opField w = 0x1 ∧ nnn = nnnField w
  | .call nnn => opField w = 0x2 ∧ nnn = nnnField w
  | .seImm x nn => opField w = 0x3 ∧ x = xField w ∧ nn = nnField w
  | .sneImm x nn => opField w = 0x4 ∧ x = xField w ∧ nn = nnField w
  | .seReg x y => (opField w = 0x5 ∧ nField w = 0x0) ∧ x = xField w ∧ y = yField w
  | .ldImm x nn => opField w = 0x6 ∧ x = xField w ∧ nn = nnField w
  | .addImm x nn => opField w = 0x7 ∧ x = xField w ∧ nn = nnField w
  | .ldReg x y => (opField w = 0x8 ∧ nField w = 0x0) ∧ x = xField w ∧ y = yField w
  | .orReg x y => (opField w = 0x8 ∧ nField w = 0x1) ∧ x = xField w ∧ y = yField w
  | .andReg x y => (opField w = 0x8 ∧ nField w = 0x2) ∧ x = xField w ∧ y = yField w
  | .xorReg x y => (opField w = 0x8 ∧ nField w = 0x3) ∧ x = xField w ∧ y = yField w
  | .addReg x y => (opField w = 0x8 ∧ nField w = 0x4) ∧ x = xField w ∧ y = yField w
  | .subReg x y => (opField w = 0x8 ∧ nField w = 0x5) ∧ x = xField w ∧ y = yField w
  | .shr x y => (opField w = 0x8 ∧ nField w = 0x6) ∧ x = xField w ∧ y = yField w
  | .subn x y => (opField w = 0x8 ∧ nField w = 0x7) ∧ x = xField w ∧ y = yField w
  | .shl x y => (opField w = 0x8 ∧ nField w = 0xE) ∧ x = xField w ∧ y = yField w
  | .sneReg x y => (opField w = 0x9 ∧ nField w = 0x0) ∧ x = xField w ∧ y = yField w
  | .ldI nnn => opField w = 0xA ∧ nnn = nnnField w
  | .jpV0 nnn => opField w = 0xB ∧ nnn = nnnField w
  | .rnd x nn => opField w = 0xC ∧ x = xField w ∧ nn = nnField w
  | .drw x y n => opField w = 0xD ∧ x = xField w ∧ y = yField w ∧ n = nField w
  | .skp x => (opField w = 0xE ∧ nnField w = 0x9E) ∧ x = xField w
  | .sknp x => (opField w = 0xE ∧ nnField w = 0xA1) ∧ x = xField w
  | .ldVxDT x => (opField w = 0xF ∧ nnField w = 0x07) ∧ x = xField w
  | .ldVxK x => (opField w = 0xF ∧ nnField w = 0x0A) ∧ x = xField w
  | .ldDTVx x => (opField w = 0xF ∧ nnField w = 0x15) ∧ x = xField w
  | .ldSTVx x => (opField w = 0xF ∧ nnField w = 0x18) ∧ x = xField w
  | .addI x => (opField w = 0xF ∧ nnField w = 0x1E) ∧ x = xField w
  | .ldF x => (opField w = 0xF ∧ nnField w = 0x29) ∧ x = xField w
  | .ldB x => (opField w = 0xF ∧ nnField w = 0x33) ∧ x = xField w
  | .storeRegs x => (opField w = 0xF ∧ nnField w = 0x55) ∧ x = xField w
  | .loadRegs x => (opField w = 0xF ∧ nnField w = 0x65) ∧ x = xField w

/-- A word of category `0x0` by its low 12 bits. -/
theorem eq_of_opField_zero {w : Word} (h : opField w = 0x0) : w = formatA 0x0 (nnnField w) := by
  conv_lhs => rw [← formatA_fields w, h]

/-- Whatever decodes is the instruction of the word's fields. -/
theorem isOf_of_decode {w : Word} {i : Instr} (h : decode w = .ok i) : i.IsOf w := by
  unfold decode at h
  split at h
  case h_1 hop =>
    unfold decode0 at h
    split at h <;> cases h
    · rename_i hn; exact (eq_of_opField_zero hop).trans (by rw [hn]; rfl)
    · rename_i hn; exact (eq_of_opField_zero hop).trans (by rw [hn]; rfl)
  case h_9 hop =>
    unfold decode8 at h
    split at h <;> cases h <;> exact ⟨⟨hop, ‹_›⟩, rfl, rfl⟩
  case h_15 hop =>
    unfold decodeE at h
    split at h <;> cases h <;> exact ⟨⟨hop, ‹_›⟩, rfl⟩
  case h_16 =>
    have hop : opField w = 15 := by
      generalize opField w = a at *
      revert a
      decide
    unfold decodeF at h
    split at h <;> cases h <;> exact ⟨⟨hop, ‹_›⟩, rfl⟩
  case h_6 hop => split at h <;> cases h; exact ⟨⟨hop, ‹_›⟩, rfl, rfl⟩
  case h_10 hop => split at h <;> cases h; exact ⟨⟨hop, ‹_›⟩, rfl, rfl⟩
  all_goals
    cases h
    rename_i hop
    simp [Instr.IsOf, hop]

/-- The instruction of a word's fields is what the word decodes to. -/
theorem decode_of_isOf {w : Word} {i : Instr} (h : i.IsOf w) : decode w = .ok i := by
  cases i <;> simp only [Instr.IsOf] at h
  case cls => subst h; rfl
  case ret => subst h; rfl
  all_goals
    first
      | (obtain ⟨⟨hop, hn⟩, rfl, rfl⟩ := h; simp [decode, decode8, decodeE, decodeF, hop, hn])
      | (obtain ⟨hop, rfl, rfl, rfl⟩ := h; simp [decode, hop])

/-- Decoding, said once: a word decodes to the instruction of its fields and to nothing else. -/
theorem decode_ok_iff (w : Word) (i : Instr) : decode w = .ok i ↔ i.IsOf w :=
  ⟨isOf_of_decode, decode_of_isOf⟩

/-- A word that does not decode is reported by name (R58). -/
theorem decode_error {w : Word} {e : DecodeError} (h : decode w = .error e) : e = .unrecognized w := by
  unfold decode decode0 decode8 decodeE decodeF at h
  repeat' (split at h)
  all_goals first | cases h; rfl | cases h

end Sys2Proof
end

