-- ==== Sys2Proof/Laws/State.lean ====
section
/-! SUPPORT. One lemma per field per update of the state, each true by unfolding, so that no later proof unfolds a
record update. -/

namespace Sys2Proof.Machine

variable (s : State)

/-! ### `setReg` -/

@[simp] theorem State.setReg_v (x : Reg) (b : Byte) : (s.setReg x b).v = s.v.set x.val b := rfl
@[simp] theorem State.setReg_i (x : Reg) (b : Byte) : (s.setReg x b).i = s.i := rfl
@[simp] theorem State.setReg_pc (x : Reg) (b : Byte) : (s.setReg x b).pc = s.pc := rfl
@[simp] theorem State.setReg_stack (x : Reg) (b : Byte) : (s.setReg x b).stack = s.stack := rfl
@[simp] theorem State.setReg_dt (x : Reg) (b : Byte) : (s.setReg x b).dt = s.dt := rfl
@[simp] theorem State.setReg_st (x : Reg) (b : Byte) : (s.setReg x b).st = s.st := rfl
@[simp] theorem State.setReg_fb (x : Reg) (b : Byte) : (s.setReg x b).fb = s.fb := rfl
@[simp] theorem State.setReg_key (x : Reg) (b : Byte) : (s.setReg x b).key = s.key := rfl
@[simp] theorem State.setReg_mem (x : Reg) (b : Byte) : (s.setReg x b).mem = s.mem := rfl
@[simp] theorem State.setReg_params (x : Reg) (b : Byte) : (s.setReg x b).params = s.params := rfl
@[simp] theorem State.setReg_draws (x : Reg) (b : Byte) : (s.setReg x b).draws = s.draws := rfl
@[simp] theorem State.setReg_schedule (x : Reg) (b : Byte) : (s.setReg x b).schedule = s.schedule := rfl
@[simp] theorem State.setReg_loadable (x : Reg) (b : Byte) : (s.setReg x b).loadable = s.loadable := rfl

/-! ### `setIndex` -/

@[simp] theorem State.setIndex_v (w : Word) : (s.setIndex w).v = s.v := rfl
@[simp] theorem State.setIndex_i (w : Word) : (s.setIndex w).i = w := rfl
@[simp] theorem State.setIndex_pc (w : Word) : (s.setIndex w).pc = s.pc := rfl
@[simp] theorem State.setIndex_stack (w : Word) : (s.setIndex w).stack = s.stack := rfl
@[simp] theorem State.setIndex_dt (w : Word) : (s.setIndex w).dt = s.dt := rfl
@[simp] theorem State.setIndex_st (w : Word) : (s.setIndex w).st = s.st := rfl
@[simp] theorem State.setIndex_fb (w : Word) : (s.setIndex w).fb = s.fb := rfl
@[simp] theorem State.setIndex_key (w : Word) : (s.setIndex w).key = s.key := rfl
@[simp] theorem State.setIndex_mem (w : Word) : (s.setIndex w).mem = s.mem := rfl
@[simp] theorem State.setIndex_params (w : Word) : (s.setIndex w).params = s.params := rfl
@[simp] theorem State.setIndex_draws (w : Word) : (s.setIndex w).draws = s.draws := rfl
@[simp] theorem State.setIndex_schedule (w : Word) : (s.setIndex w).schedule = s.schedule := rfl
@[simp] theorem State.setIndex_loadable (w : Word) : (s.setIndex w).loadable = s.loadable := rfl

/-! ### `setPc` -/

@[simp] theorem State.setPc_v (w : Word) : (s.setPc w).v = s.v := rfl
@[simp] theorem State.setPc_i (w : Word) : (s.setPc w).i = s.i := rfl
@[simp] theorem State.setPc_pc (w : Word) : (s.setPc w).pc = w := rfl
@[simp] theorem State.setPc_stack (w : Word) : (s.setPc w).stack = s.stack := rfl
@[simp] theorem State.setPc_dt (w : Word) : (s.setPc w).dt = s.dt := rfl
@[simp] theorem State.setPc_st (w : Word) : (s.setPc w).st = s.st := rfl
@[simp] theorem State.setPc_fb (w : Word) : (s.setPc w).fb = s.fb := rfl
@[simp] theorem State.setPc_key (w : Word) : (s.setPc w).key = s.key := rfl
@[simp] theorem State.setPc_mem (w : Word) : (s.setPc w).mem = s.mem := rfl
@[simp] theorem State.setPc_params (w : Word) : (s.setPc w).params = s.params := rfl
@[simp] theorem State.setPc_draws (w : Word) : (s.setPc w).draws = s.draws := rfl
@[simp] theorem State.setPc_schedule (w : Word) : (s.setPc w).schedule = s.schedule := rfl
@[simp] theorem State.setPc_loadable (w : Word) : (s.setPc w).loadable = s.loadable := rfl

/-! ### `advance` -/

@[simp] theorem State.advance_v : (s.advance).v = s.v := rfl
@[simp] theorem State.advance_i : (s.advance).i = s.i := rfl
@[simp] theorem State.advance_pc : (s.advance).pc = s.pc + 2 := rfl
@[simp] theorem State.advance_stack : (s.advance).stack = s.stack := rfl
@[simp] theorem State.advance_dt : (s.advance).dt = s.dt := rfl
@[simp] theorem State.advance_st : (s.advance).st = s.st := rfl
@[simp] theorem State.advance_fb : (s.advance).fb = s.fb := rfl
@[simp] theorem State.advance_key : (s.advance).key = s.key := rfl
@[simp] theorem State.advance_mem : (s.advance).mem = s.mem := rfl
@[simp] theorem State.advance_params : (s.advance).params = s.params := rfl
@[simp] theorem State.advance_draws : (s.advance).draws = s.draws := rfl
@[simp] theorem State.advance_schedule : (s.advance).schedule = s.schedule := rfl
@[simp] theorem State.advance_loadable : (s.advance).loadable = s.loadable := rfl

/-! ### `storeByte` -/

@[simp] theorem State.storeByte_v (a : Nat) (b : Byte) : (s.storeByte a b).v = s.v := rfl
@[simp] theorem State.storeByte_i (a : Nat) (b : Byte) : (s.storeByte a b).i = s.i := rfl
@[simp] theorem State.storeByte_pc (a : Nat) (b : Byte) : (s.storeByte a b).pc = s.pc := rfl
@[simp] theorem State.storeByte_stack (a : Nat) (b : Byte) : (s.storeByte a b).stack = s.stack := rfl
@[simp] theorem State.storeByte_dt (a : Nat) (b : Byte) : (s.storeByte a b).dt = s.dt := rfl
@[simp] theorem State.storeByte_st (a : Nat) (b : Byte) : (s.storeByte a b).st = s.st := rfl
@[simp] theorem State.storeByte_fb (a : Nat) (b : Byte) : (s.storeByte a b).fb = s.fb := rfl
@[simp] theorem State.storeByte_key (a : Nat) (b : Byte) : (s.storeByte a b).key = s.key := rfl
@[simp] theorem State.storeByte_mem (a : Nat) (b : Byte) : (s.storeByte a b).mem = Memory.write s.params.font s.mem a b := rfl
@[simp] theorem State.storeByte_params (a : Nat) (b : Byte) : (s.storeByte a b).params = s.params := rfl
@[simp] theorem State.storeByte_draws (a : Nat) (b : Byte) : (s.storeByte a b).draws = s.draws := rfl
@[simp] theorem State.storeByte_schedule (a : Nat) (b : Byte) : (s.storeByte a b).schedule = s.schedule := rfl
@[simp] theorem State.storeByte_loadable (a : Nat) (b : Byte) : (s.storeByte a b).loadable = s.loadable := rfl

/-! ### `writeKey` -/

@[simp] theorem State.writeKey_v (k : Option Key) : (s.writeKey k).v = s.v := rfl
@[simp] theorem State.writeKey_i (k : Option Key) : (s.writeKey k).i = s.i := rfl
@[simp] theorem State.writeKey_pc (k : Option Key) : (s.writeKey k).pc = s.pc := rfl
@[simp] theorem State.writeKey_stack (k : Option Key) : (s.writeKey k).stack = s.stack := rfl
@[simp] theorem State.writeKey_dt (k : Option Key) : (s.writeKey k).dt = s.dt := rfl
@[simp] theorem State.writeKey_st (k : Option Key) : (s.writeKey k).st = s.st := rfl
@[simp] theorem State.writeKey_fb (k : Option Key) : (s.writeKey k).fb = s.fb := rfl
@[simp] theorem State.writeKey_key (k : Option Key) : (s.writeKey k).key = k := rfl
@[simp] theorem State.writeKey_mem (k : Option Key) : (s.writeKey k).mem = s.mem := rfl
@[simp] theorem State.writeKey_params (k : Option Key) : (s.writeKey k).params = s.params := rfl
@[simp] theorem State.writeKey_draws (k : Option Key) : (s.writeKey k).draws = s.draws := rfl
@[simp] theorem State.writeKey_schedule (k : Option Key) : (s.writeKey k).schedule = s.schedule := rfl
@[simp] theorem State.writeKey_loadable (k : Option Key) : (s.writeKey k).loadable = s.loadable := rfl

/-! ### `delayTick` -/

@[simp] theorem State.delayTick_v : (s.delayTick).v = s.v := rfl
@[simp] theorem State.delayTick_i : (s.delayTick).i = s.i := rfl
@[simp] theorem State.delayTick_pc : (s.delayTick).pc = s.pc := rfl
@[simp] theorem State.delayTick_stack : (s.delayTick).stack = s.stack := rfl
@[simp] theorem State.delayTick_dt : (s.delayTick).dt = tickDown s.dt := rfl
@[simp] theorem State.delayTick_st : (s.delayTick).st = s.st := rfl
@[simp] theorem State.delayTick_fb : (s.delayTick).fb = s.fb := rfl
@[simp] theorem State.delayTick_key : (s.delayTick).key = s.key := rfl
@[simp] theorem State.delayTick_mem : (s.delayTick).mem = s.mem := rfl
@[simp] theorem State.delayTick_params : (s.delayTick).params = s.params := rfl
@[simp] theorem State.delayTick_draws : (s.delayTick).draws = s.draws := rfl
@[simp] theorem State.delayTick_schedule : (s.delayTick).schedule = s.schedule := rfl
@[simp] theorem State.delayTick_loadable : (s.delayTick).loadable = s.loadable := rfl

/-! ### `soundTick` -/

@[simp] theorem State.soundTick_v : (s.soundTick).v = s.v := rfl
@[simp] theorem State.soundTick_i : (s.soundTick).i = s.i := rfl
@[simp] theorem State.soundTick_pc : (s.soundTick).pc = s.pc := rfl
@[simp] theorem State.soundTick_stack : (s.soundTick).stack = s.stack := rfl
@[simp] theorem State.soundTick_dt : (s.soundTick).dt = s.dt := rfl
@[simp] theorem State.soundTick_st : (s.soundTick).st = tickDown s.st := rfl
@[simp] theorem State.soundTick_fb : (s.soundTick).fb = s.fb := rfl
@[simp] theorem State.soundTick_key : (s.soundTick).key = s.key := rfl
@[simp] theorem State.soundTick_mem : (s.soundTick).mem = s.mem := rfl
@[simp] theorem State.soundTick_params : (s.soundTick).params = s.params := rfl
@[simp] theorem State.soundTick_draws : (s.soundTick).draws = s.draws := rfl
@[simp] theorem State.soundTick_schedule : (s.soundTick).schedule = s.schedule := rfl
@[simp] theorem State.soundTick_loadable : (s.soundTick).loadable = s.loadable := rfl

/-! ### `setFlag` -/

@[simp] theorem State.setFlag_v (c : Bool) : (s.setFlag c).v = s.v.set 15 (if c then 1 else 0) := rfl
@[simp] theorem State.setFlag_i (c : Bool) : (s.setFlag c).i = s.i := rfl
@[simp] theorem State.setFlag_pc (c : Bool) : (s.setFlag c).pc = s.pc := rfl
@[simp] theorem State.setFlag_stack (c : Bool) : (s.setFlag c).stack = s.stack := rfl
@[simp] theorem State.setFlag_dt (c : Bool) : (s.setFlag c).dt = s.dt := rfl
@[simp] theorem State.setFlag_st (c : Bool) : (s.setFlag c).st = s.st := rfl
@[simp] theorem State.setFlag_fb (c : Bool) : (s.setFlag c).fb = s.fb := rfl
@[simp] theorem State.setFlag_key (c : Bool) : (s.setFlag c).key = s.key := rfl
@[simp] theorem State.setFlag_mem (c : Bool) : (s.setFlag c).mem = s.mem := rfl
@[simp] theorem State.setFlag_params (c : Bool) : (s.setFlag c).params = s.params := rfl
@[simp] theorem State.setFlag_draws (c : Bool) : (s.setFlag c).draws = s.draws := rfl
@[simp] theorem State.setFlag_schedule (c : Bool) : (s.setFlag c).schedule = s.schedule := rfl
@[simp] theorem State.setFlag_loadable (c : Bool) : (s.setFlag c).loadable = s.loadable := rfl

/-! ### `drawByte` -/

@[simp] theorem State.drawByte_byte : s.drawByte.1 = Config.randomByte s.draws := rfl
@[simp] theorem State.drawByte_v : s.drawByte.2.v = s.v := rfl
@[simp] theorem State.drawByte_i : s.drawByte.2.i = s.i := rfl
@[simp] theorem State.drawByte_pc : s.drawByte.2.pc = s.pc := rfl
@[simp] theorem State.drawByte_stack : s.drawByte.2.stack = s.stack := rfl
@[simp] theorem State.drawByte_dt : s.drawByte.2.dt = s.dt := rfl
@[simp] theorem State.drawByte_st : s.drawByte.2.st = s.st := rfl
@[simp] theorem State.drawByte_fb : s.drawByte.2.fb = s.fb := rfl
@[simp] theorem State.drawByte_key : s.drawByte.2.key = s.key := rfl
@[simp] theorem State.drawByte_mem : s.drawByte.2.mem = s.mem := rfl
@[simp] theorem State.drawByte_params : s.drawByte.2.params = s.params := rfl
@[simp] theorem State.drawByte_draws : s.drawByte.2.draws = s.draws + 1 := rfl
@[simp] theorem State.drawByte_schedule : s.drawByte.2.schedule = s.schedule := rfl
@[simp] theorem State.drawByte_loadable : s.drawByte.2.loadable = s.loadable := rfl

/-! ### `skipIf`, `popPc` -/

@[simp] theorem State.skipIf_v (c : Bool) : (s.skipIf c).v = s.v := by cases c <;> rfl
@[simp] theorem State.skipIf_i (c : Bool) : (s.skipIf c).i = s.i := by cases c <;> rfl
@[simp] theorem State.skipIf_pc (c : Bool) : (s.skipIf c).pc = if c then s.pc + 2 else s.pc := by
  cases c <;> rfl
@[simp] theorem State.skipIf_stack (c : Bool) : (s.skipIf c).stack = s.stack := by cases c <;> rfl
@[simp] theorem State.skipIf_dt (c : Bool) : (s.skipIf c).dt = s.dt := by cases c <;> rfl
@[simp] theorem State.skipIf_st (c : Bool) : (s.skipIf c).st = s.st := by cases c <;> rfl
@[simp] theorem State.skipIf_fb (c : Bool) : (s.skipIf c).fb = s.fb := by cases c <;> rfl
@[simp] theorem State.skipIf_key (c : Bool) : (s.skipIf c).key = s.key := by cases c <;> rfl
@[simp] theorem State.skipIf_mem (c : Bool) : (s.skipIf c).mem = s.mem := by cases c <;> rfl
@[simp] theorem State.skipIf_params (c : Bool) : (s.skipIf c).params = s.params := by cases c <;> rfl
@[simp] theorem State.skipIf_draws (c : Bool) : (s.skipIf c).draws = s.draws := by cases c <;> rfl
@[simp] theorem State.skipIf_schedule (c : Bool) : (s.skipIf c).schedule = s.schedule := by cases c <;> rfl
@[simp] theorem State.skipIf_loadable (c : Bool) : (s.skipIf c).loadable = s.loadable := by cases c <;> rfl
@[simp] theorem State.popPc_v : s.popPc.v = s.v := by unfold State.popPc; split <;> rfl
@[simp] theorem State.popPc_i : s.popPc.i = s.i := by unfold State.popPc; split <;> rfl
@[simp] theorem State.popPc_pc : s.popPc.pc = s.stack.headD s.pc := by
  unfold State.popPc; split <;> simp_all
@[simp] theorem State.popPc_stack : s.popPc.stack = s.stack.tail := by
  unfold State.popPc; split <;> simp_all
@[simp] theorem State.popPc_dt : s.popPc.dt = s.dt := by unfold State.popPc; split <;> rfl
@[simp] theorem State.popPc_st : s.popPc.st = s.st := by unfold State.popPc; split <;> rfl
@[simp] theorem State.popPc_fb : s.popPc.fb = s.fb := by unfold State.popPc; split <;> rfl
@[simp] theorem State.popPc_key : s.popPc.key = s.key := by unfold State.popPc; split <;> rfl
@[simp] theorem State.popPc_mem : s.popPc.mem = s.mem := by unfold State.popPc; split <;> rfl
@[simp] theorem State.popPc_params : s.popPc.params = s.params := by unfold State.popPc; split <;> rfl
@[simp] theorem State.popPc_draws : s.popPc.draws = s.draws := by unfold State.popPc; split <;> rfl
@[simp] theorem State.popPc_schedule : s.popPc.schedule = s.schedule := by unfold State.popPc; split <;> rfl
@[simp] theorem State.popPc_loadable : s.popPc.loadable = s.loadable := by unfold State.popPc; split <;> rfl

/-! ### `storeBytes` and `setRegsFrom` change one field each -/

@[simp] theorem State.storeBytes_v (a : Nat) (bs : List Byte) : (s.storeBytes a bs).v = s.v := by
  induction bs generalizing s a with
  | nil => rfl
  | cons b rest ih => exact ih _ _
@[simp] theorem State.storeBytes_i (a : Nat) (bs : List Byte) : (s.storeBytes a bs).i = s.i := by
  induction bs generalizing s a with
  | nil => rfl
  | cons b rest ih => exact ih _ _
@[simp] theorem State.storeBytes_pc (a : Nat) (bs : List Byte) : (s.storeBytes a bs).pc = s.pc := by
  induction bs generalizing s a with
  | nil => rfl
  | cons b rest ih => exact ih _ _
@[simp] theorem State.storeBytes_stack (a : Nat) (bs : List Byte) : (s.storeBytes a bs).stack = s.stack := by
  induction bs generalizing s a with
  | nil => rfl
  | cons b rest ih => exact ih _ _
@[simp] theorem State.storeBytes_dt (a : Nat) (bs : List Byte) : (s.storeBytes a bs).dt = s.dt := by
  induction bs generalizing s a with
  | nil => rfl
  | cons b rest ih => exact ih _ _
@[simp] theorem State.storeBytes_st (a : Nat) (bs : List Byte) : (s.storeBytes a bs).st = s.st := by
  induction bs generalizing s a with
  | nil => rfl
  | cons b rest ih => exact ih _ _
@[simp] theorem State.storeBytes_fb (a : Nat) (bs : List Byte) : (s.storeBytes a bs).fb = s.fb := by
  induction bs generalizing s a with
  | nil => rfl
  | cons b rest ih => exact ih _ _
@[simp] theorem State.storeBytes_key (a : Nat) (bs : List Byte) : (s.storeBytes a bs).key = s.key := by
  induction bs generalizing s a with
  | nil => rfl
  | cons b rest ih => exact ih _ _
@[simp] theorem State.storeBytes_params (a : Nat) (bs : List Byte) : (s.storeBytes a bs).params = s.params := by
  induction bs generalizing s a with
  | nil => rfl
  | cons b rest ih => exact ih _ _
@[simp] theorem State.storeBytes_draws (a : Nat) (bs : List Byte) : (s.storeBytes a bs).draws = s.draws := by
  induction bs generalizing s a with
  | nil => rfl
  | cons b rest ih => exact ih _ _
@[simp] theorem State.storeBytes_schedule (a : Nat) (bs : List Byte) : (s.storeBytes a bs).schedule = s.schedule := by
  induction bs generalizing s a with
  | nil => rfl
  | cons b rest ih => exact ih _ _
@[simp] theorem State.storeBytes_loadable (a : Nat) (bs : List Byte) : (s.storeBytes a bs).loadable = s.loadable := by
  induction bs generalizing s a with
  | nil => rfl
  | cons b rest ih => exact ih _ _
@[simp] theorem State.setRegsFrom_i (k : Nat) (bs : List Byte) : (s.setRegsFrom k bs).i = s.i := by
  induction bs generalizing s k with
  | nil => rfl
  | cons b rest ih =>
    rw [State.setRegsFrom, ih]
    split <;> rfl
@[simp] theorem State.setRegsFrom_pc (k : Nat) (bs : List Byte) : (s.setRegsFrom k bs).pc = s.pc := by
  induction bs generalizing s k with
  | nil => rfl
  | cons b rest ih =>
    rw [State.setRegsFrom, ih]
    split <;> rfl
@[simp] theorem State.setRegsFrom_stack (k : Nat) (bs : List Byte) : (s.setRegsFrom k bs).stack = s.stack := by
  induction bs generalizing s k with
  | nil => rfl
  | cons b rest ih =>
    rw [State.setRegsFrom, ih]
    split <;> rfl
@[simp] theorem State.setRegsFrom_dt (k : Nat) (bs : List Byte) : (s.setRegsFrom k bs).dt = s.dt := by
  induction bs generalizing s k with
  | nil => rfl
  | cons b rest ih =>
    rw [State.setRegsFrom, ih]
    split <;> rfl
@[simp] theorem State.setRegsFrom_st (k : Nat) (bs : List Byte) : (s.setRegsFrom k bs).st = s.st := by
  induction bs generalizing s k with
  | nil => rfl
  | cons b rest ih =>
    rw [State.setRegsFrom, ih]
    split <;> rfl
@[simp] theorem State.setRegsFrom_fb (k : Nat) (bs : List Byte) : (s.setRegsFrom k bs).fb = s.fb := by
  induction bs generalizing s k with
  | nil => rfl
  | cons b rest ih =>
    rw [State.setRegsFrom, ih]
    split <;> rfl
@[simp] theorem State.setRegsFrom_key (k : Nat) (bs : List Byte) : (s.setRegsFrom k bs).key = s.key := by
  induction bs generalizing s k with
  | nil => rfl
  | cons b rest ih =>
    rw [State.setRegsFrom, ih]
    split <;> rfl
@[simp] theorem State.setRegsFrom_mem (k : Nat) (bs : List Byte) : (s.setRegsFrom k bs).mem = s.mem := by
  induction bs generalizing s k with
  | nil => rfl
  | cons b rest ih =>
    rw [State.setRegsFrom, ih]
    split <;> rfl
@[simp] theorem State.setRegsFrom_params (k : Nat) (bs : List Byte) : (s.setRegsFrom k bs).params = s.params := by
  induction bs generalizing s k with
  | nil => rfl
  | cons b rest ih =>
    rw [State.setRegsFrom, ih]
    split <;> rfl
@[simp] theorem State.setRegsFrom_draws (k : Nat) (bs : List Byte) : (s.setRegsFrom k bs).draws = s.draws := by
  induction bs generalizing s k with
  | nil => rfl
  | cons b rest ih =>
    rw [State.setRegsFrom, ih]
    split <;> rfl
@[simp] theorem State.setRegsFrom_schedule (k : Nat) (bs : List Byte) : (s.setRegsFrom k bs).schedule = s.schedule := by
  induction bs generalizing s k with
  | nil => rfl
  | cons b rest ih =>
    rw [State.setRegsFrom, ih]
    split <;> rfl
@[simp] theorem State.setRegsFrom_loadable (k : Nat) (bs : List Byte) : (s.setRegsFrom k bs).loadable = s.loadable := by
  induction bs generalizing s k with
  | nil => rfl
  | cons b rest ih =>
    rw [State.setRegsFrom, ih]
    split <;> rfl

/-! ### What lands before a step changes `DT`, `ST` and `KEY` only -/

@[simp] theorem Event.apply_v (e : Event) : (Event.apply s e).v = s.v := by cases e <;> rfl
@[simp] theorem deliver_v (es : List Event) : (deliver s es).v = s.v := by
  induction es generalizing s with
  | nil => rfl
  | cons e rest ih => rw [deliver, ih, Event.apply_v]
@[simp] theorem Event.apply_i (e : Event) : (Event.apply s e).i = s.i := by cases e <;> rfl
@[simp] theorem deliver_i (es : List Event) : (deliver s es).i = s.i := by
  induction es generalizing s with
  | nil => rfl
  | cons e rest ih => rw [deliver, ih, Event.apply_i]
@[simp] theorem Event.apply_pc (e : Event) : (Event.apply s e).pc = s.pc := by cases e <;> rfl
@[simp] theorem deliver_pc (es : List Event) : (deliver s es).pc = s.pc := by
  induction es generalizing s with
  | nil => rfl
  | cons e rest ih => rw [deliver, ih, Event.apply_pc]
@[simp] theorem Event.apply_stack (e : Event) : (Event.apply s e).stack = s.stack := by cases e <;> rfl
@[simp] theorem deliver_stack (es : List Event) : (deliver s es).stack = s.stack := by
  induction es generalizing s with
  | nil => rfl
  | cons e rest ih => rw [deliver, ih, Event.apply_stack]
@[simp] theorem Event.apply_fb (e : Event) : (Event.apply s e).fb = s.fb := by cases e <;> rfl
@[simp] theorem deliver_fb (es : List Event) : (deliver s es).fb = s.fb := by
  induction es generalizing s with
  | nil => rfl
  | cons e rest ih => rw [deliver, ih, Event.apply_fb]
@[simp] theorem Event.apply_mem (e : Event) : (Event.apply s e).mem = s.mem := by cases e <;> rfl
@[simp] theorem deliver_mem (es : List Event) : (deliver s es).mem = s.mem := by
  induction es generalizing s with
  | nil => rfl
  | cons e rest ih => rw [deliver, ih, Event.apply_mem]
@[simp] theorem Event.apply_params (e : Event) : (Event.apply s e).params = s.params := by cases e <;> rfl
@[simp] theorem deliver_params (es : List Event) : (deliver s es).params = s.params := by
  induction es generalizing s with
  | nil => rfl
  | cons e rest ih => rw [deliver, ih, Event.apply_params]
@[simp] theorem Event.apply_draws (e : Event) : (Event.apply s e).draws = s.draws := by cases e <;> rfl
@[simp] theorem deliver_draws (es : List Event) : (deliver s es).draws = s.draws := by
  induction es generalizing s with
  | nil => rfl
  | cons e rest ih => rw [deliver, ih, Event.apply_draws]
@[simp] theorem Event.apply_schedule (e : Event) : (Event.apply s e).schedule = s.schedule := by cases e <;> rfl
@[simp] theorem deliver_schedule (es : List Event) : (deliver s es).schedule = s.schedule := by
  induction es generalizing s with
  | nil => rfl
  | cons e rest ih => rw [deliver, ih, Event.apply_schedule]
@[simp] theorem Event.apply_loadable (e : Event) : (Event.apply s e).loadable = s.loadable := by cases e <;> rfl
@[simp] theorem deliver_loadable (es : List Event) : (deliver s es).loadable = s.loadable := by
  induction es generalizing s with
  | nil => rfl
  | cons e rest ih => rw [deliver, ih, Event.apply_loadable]
@[simp] theorem State.beginStep_v : s.beginStep.v = s.v := by
  unfold State.beginStep; split <;> simp_all
@[simp] theorem State.beginStep_i : s.beginStep.i = s.i := by
  unfold State.beginStep; split <;> simp_all
@[simp] theorem State.beginStep_pc : s.beginStep.pc = s.pc := by
  unfold State.beginStep; split <;> simp_all
@[simp] theorem State.beginStep_stack : s.beginStep.stack = s.stack := by
  unfold State.beginStep; split <;> simp_all
@[simp] theorem State.beginStep_fb : s.beginStep.fb = s.fb := by
  unfold State.beginStep; split <;> simp_all
@[simp] theorem State.beginStep_mem : s.beginStep.mem = s.mem := by
  unfold State.beginStep; split <;> simp_all
@[simp] theorem State.beginStep_params : s.beginStep.params = s.params := by
  unfold State.beginStep; split <;> simp_all
@[simp] theorem State.beginStep_draws : s.beginStep.draws = s.draws := by
  unfold State.beginStep; split <;> simp_all
@[simp] theorem State.beginStep_schedule : s.beginStep.schedule = s.schedule.tail := by
  unfold State.beginStep; split <;> simp_all
@[simp] theorem State.beginStep_loadable : s.beginStep.loadable = false := by
  unfold State.beginStep; split <;> simp_all

end Sys2Proof.Machine
end

