-- ==== Sys2Proof/Laws/Ops.lean ====
section
/-! SUPPORT. What each shared operation over registers and memory can do, said once. -/

namespace Sys2Proof.Machine

/-! ### Registers -/

theorem State.reg_setReg (s : State) (x r : Reg) (b : Byte) :
    (s.setReg x b).reg r = if r = x then b else s.reg r := by
  unfold State.reg State.setReg
  simp only [Vector.getElem_set, Fin.ext_iff, eq_comm]

@[simp] theorem State.reg_setReg_self (s : State) (x : Reg) (b : Byte) : (s.setReg x b).reg x = b := by
  simp [State.reg_setReg]

theorem State.reg_setReg_of_ne (s : State) {x r : Reg} (b : Byte) (h : r ≠ x) :
    (s.setReg x b).reg r = s.reg r := by
  simp [State.reg_setReg, h]

theorem State.reg_setFlag (s : State) (c : Bool) (r : Reg) :
    (s.setFlag c).reg r = if r = 15 then (if c then 1 else 0) else s.reg r :=
  State.reg_setReg s flagReg r _

theorem State.reg_setRegFlag (s : State) (x r : Reg) (b : Byte) (c : Bool) :
    (s.setRegFlag x b c).reg r = if r = 15 then (if c then 1 else 0) else if r = x then b else s.reg r := by
  rw [State.setRegFlag, State.reg_setFlag, State.reg_setReg]

/-- Two states with the same register file read alike. -/
theorem State.reg_congr {s t : State} (h : t.v = s.v) (r : Reg) : t.reg r = s.reg r := by
  simp [State.reg, h]

/-! ### Memory: reading after writing -/

theorem Memory.lookup_erase (m : Memory) (a c : Nat) :
    Memory.lookup (Memory.erase m a) c = if c = a then none else Memory.lookup m c := by
  induction m with
  | nil => simp [Memory.erase, Memory.lookup]
  | cons cell rest ih =>
    obtain ⟨k, b⟩ := cell
    by_cases hk : k = a <;> by_cases hc : c = a <;> by_cases hkc : k = c <;>
      simp_all [Memory.erase, Memory.lookup]

theorem Memory.lookup_insert (m : Memory) (a c : Nat) (b : Byte) :
    Memory.lookup (Memory.insert m a b) c = if c = a then some b else Memory.lookup m c := by
  induction m with
  | nil => simp [Memory.insert, Memory.lookup, eq_comm]
  | cons cell rest ih =>
    obtain ⟨k, d⟩ := cell
    by_cases hc : c = a
    · subst hc
      by_cases h1 : c < k
      · simp [Memory.insert, h1, Memory.lookup]
      · by_cases h2 : k = c <;> simp [Memory.insert, h1, h2, Memory.lookup, ih]
    · have hca : ¬ a = c := fun h => hc h.symm
      by_cases h1 : a < k
      · simp [Memory.insert, h1, Memory.lookup, hc, hca]
      · by_cases h2 : k = a
        · simp [Memory.insert, h2, Memory.lookup, hc, hca]
        · simp [Memory.insert, h1, h2, Memory.lookup, ih, hc]

/-- A read after a write, in any memory: the byte written there, everywhere else what was there. -/
theorem Memory.read_write (font : Font) (m : Memory) (a c : Nat) (b : Byte) :
    Memory.read font (Memory.write font m a b) c = if c = a then b else Memory.read font m c := by
  unfold Memory.read Memory.write
  by_cases hb : b = background font a <;> by_cases hc : c = a <;>
    simp [hb, hc, Memory.lookup_erase, Memory.lookup_insert]

theorem State.byteAt_storeByte (s : State) (a c : Nat) (b : Byte) :
    (s.storeByte a b).byteAt c = if c = a then b else s.byteAt c :=
  Memory.read_write s.params.font s.mem a c b

/-- Two states with the same memory and font read alike. -/
theorem State.byteAt_congr {s t : State} (hm : t.mem = s.mem) (hp : t.params = s.params) (a : Nat) :
    t.byteAt a = s.byteAt a := by
  simp [State.byteAt, hm, hp]

/-- What a run of stores leaves: its bytes from `a` on, and every byte outside them as it was. -/
theorem State.byteAt_storeBytes (s : State) (a c : Nat) (bs : List Byte) :
    (s.storeBytes a bs).byteAt c = if a ≤ c ∧ c < a + bs.length then bs.getD (c - a) 0 else s.byteAt c := by
  induction bs generalizing s a with
  | nil => simp [State.storeBytes]
  | cons b rest ih =>
    rw [State.storeBytes, ih, State.byteAt_storeByte]
    simp only [List.length_cons]
    by_cases h1 : a + 1 ≤ c ∧ c < a + 1 + rest.length
    · rw [if_pos h1, if_pos (by omega), show c - a = (c - (a + 1)) + 1 by omega, List.getD_cons_succ]
    · by_cases h2 : c = a
      · subst h2; simp
      · rw [if_neg h1, if_neg h2, if_neg (by omega)]

theorem State.length_loadBytes (s : State) (a count : Nat) : (s.loadBytes a count).length = count := by
  induction count generalizing a with
  | zero => rfl
  | succ n ih => simp [State.loadBytes, ih]

/-- The `k`-th byte of a run of loads. -/
theorem State.getD_loadBytes (s : State) (a count k : Nat) (h : k < count) :
    (s.loadBytes a count).getD k 0 = s.byteAt (a + k) := by
  induction count generalizing a k with
  | zero => omega
  | succ n ih =>
    cases k with
    | zero => simp [State.loadBytes]
    | succ j =>
      rw [State.loadBytes, List.getD_cons_succ, ih (a + 1) j (by omega)]
      congr 1; omega

/-- What a run of register writes leaves: its bytes in the registers from `k` on, the others as they were. -/
theorem State.reg_setRegsFrom (s : State) (k : Nat) (bs : List Byte) (r : Reg) :
    (s.setRegsFrom k bs).reg r =
      if k ≤ r.val ∧ r.val < k + bs.length then bs.getD (r.val - k) 0 else s.reg r := by
  induction bs generalizing s k with
  | nil => simp [State.setRegsFrom]
  | cons b rest ih =>
    rw [State.setRegsFrom, ih]
    simp only [List.length_cons]
    have hr := r.isLt
    by_cases h1 : k + 1 ≤ r.val ∧ r.val < k + 1 + rest.length
    · rw [if_pos h1, if_pos (by omega), show r.val - k = (r.val - (k + 1)) + 1 by omega, List.getD_cons_succ]
    · rw [if_neg h1]
      by_cases h2 : r.val = k
      · rw [if_pos (by omega), dif_pos (by omega), State.reg_setReg, if_pos (Fin.ext h2)]
        simp [h2]
      · rw [if_neg (by omega)]
        split
        · exact State.reg_setReg_of_ne s b (fun h => h2 (congrArg Fin.val h))
        · rfl

theorem State.getD_regsThrough (s : State) (x : Reg) (k : Nat) (h : k ≤ x.val) :
    (s.regsThrough x).getD k 0 = s.reg ⟨k, by omega⟩ := by
  unfold State.regsThrough State.reg
  have hx := x.isLt
  simp [List.getD_eq_getElem?_getD, show k < x.val + 1 by omega]

theorem State.length_regsThrough (s : State) (x : Reg) : (s.regsThrough x).length = x.val + 1 := by
  unfold State.regsThrough
  have hx := x.isLt
  simp

/-! ### Memory: the canonical form -/

theorem Memory.risingFrom_mono {m : Memory} {lo lo' : Nat} (h : Memory.risingFrom lo m = true) (hl : lo' ≤ lo) :
    Memory.risingFrom lo' m = true := by
  cases m with
  | nil => rfl
  | cons cell rest =>
    obtain ⟨k, b⟩ := cell
    simp only [Memory.risingFrom, Bool.and_eq_true, decide_eq_true_eq] at h ⊢
    exact ⟨by omega, h.2⟩

theorem Memory.risingFrom_erase {m : Memory} {lo : Nat} (a : Nat) (h : Memory.risingFrom lo m = true) :
    Memory.risingFrom lo (Memory.erase m a) = true := by
  induction m generalizing lo with
  | nil => rfl
  | cons cell rest ih =>
    obtain ⟨k, b⟩ := cell
    simp only [Memory.risingFrom, Bool.and_eq_true, decide_eq_true_eq] at h
    by_cases hk : k = a
    · simpa [Memory.erase, hk] using Memory.risingFrom_mono (ih h.2) (by omega)
    · simp [Memory.erase, hk, Memory.risingFrom, h.1, ih h.2]

theorem Memory.risingFrom_insert {m : Memory} {lo : Nat} (a : Nat) (b : Byte) (h : Memory.risingFrom lo m = true)
    (ha : lo ≤ a) : Memory.risingFrom lo (Memory.insert m a b) = true := by
  induction m generalizing lo with
  | nil => simp [Memory.insert, Memory.risingFrom, ha]
  | cons cell rest ih =>
    obtain ⟨k, c⟩ := cell
    simp only [Memory.risingFrom, Bool.and_eq_true, decide_eq_true_eq] at h
    simp only [Memory.insert]
    split_ifs with h1 h2
    · simp [Memory.risingFrom, ha, h.2]; omega
    · simp [Memory.risingFrom, h.1, ← h2, h.2]
    · simp [Memory.risingFrom, h.1, ih h.2 (by omega)]

theorem Memory.mem_erase {m : Memory} {a : Nat} {c : Host.Cell} (h : c ∈ Memory.erase m a) : c ∈ m := by
  induction m with
  | nil => exact h
  | cons cell rest ih =>
    obtain ⟨k, b⟩ := cell
    simp only [Memory.erase] at h
    split_ifs at h with hk
    · exact List.mem_cons_of_mem _ (ih h)
    · rcases List.mem_cons.mp h with h | h
      · exact h ▸ List.mem_cons_self
      · exact List.mem_cons_of_mem _ (ih h)

theorem Memory.mem_insert {m : Memory} {a : Nat} {b : Byte} {c : Host.Cell} (h : c ∈ Memory.insert m a b) :
    c = (a, b) ∨ c ∈ m := by
  induction m with
  | nil => simpa [Memory.insert] using h
  | cons cell rest ih =>
    obtain ⟨k, d⟩ := cell
    simp only [Memory.insert] at h
    split_ifs at h with h1 h2
    · simpa using h
    · rcases List.mem_cons.mp h with h | h
      · exact .inl h
      · exact .inr (List.mem_cons_of_mem _ h)
    · rcases List.mem_cons.mp h with h | h
      · exact .inr (h ▸ List.mem_cons_self)
      · exact (ih h).imp_right (List.mem_cons_of_mem _)

/-- Writing a byte inside the address space keeps the canonical form. -/
theorem Memory.wf_write {font : Font} {m : Memory} {a : Nat} (b : Byte) (h : Memory.wf font m = true)
    (ha : a < Config.memSize) : Memory.wf font (Memory.write font m a b) = true := by
  simp only [Memory.wf, Bool.and_eq_true, List.all_eq_true, decide_eq_true_eq, bne_iff_ne] at h ⊢
  unfold Memory.write
  split_ifs with hb
  · exact ⟨Memory.risingFrom_erase a h.1, fun c hc => h.2 c (Memory.mem_erase hc)⟩
  · refine ⟨Memory.risingFrom_insert a b h.1 (Nat.zero_le a), fun c hc => ?_⟩
    rcases Memory.mem_insert hc with rfl | hc
    · exact ⟨ha, hb⟩
    · exact h.2 c hc

/-- Storing a run of bytes inside the address space keeps the canonical form. -/
theorem State.wf_storeBytes {s : State} {a : Nat} {bs : List Byte}
    (h : Memory.wf s.params.font s.mem = true) (ha : a + bs.length ≤ Config.memSize) :
    Memory.wf s.params.font (s.storeBytes a bs).mem = true := by
  induction bs generalizing s a with
  | nil => exact h
  | cons b rest ih =>
    simp only [List.length_cons] at ha
    exact ih (s := s.storeByte a b) (Memory.wf_write b h (by omega)) (by omega)

/-- Reset memory is in canonical form. -/
theorem State.wf_resetWith (p : Params) :
    Memory.wf (State.resetWith p).params.font (State.resetWith p).mem = true := rfl

/-! ### Bounds checks, fetch, stack -/

/-- A bounds check passes when its bytes are all below `MEM_SIZE`. -/
theorem checkRange_ok {base count : Nat} (h : count = 0 ∨ base + count ≤ 0x1000) :
    checkRange base count = .ok () := by
  unfold checkRange Config.addrMax
  rw [if_neg (by omega)]

/-- A bounds check of at least one byte past `ADDR_MAX` reports the least address above it. -/
theorem checkRange_error {base count : Nat} (h0 : 0 < count) (h : 0x1000 < base + count) :
    checkRange base count = .error (.addressOutOfRange (max base 0x1000)) := by
  unfold checkRange Config.addrMax
  rw [if_pos (by omega)]

/-- What a bounds check can answer. -/
theorem checkRange_cases (base count : Nat) :
    (checkRange base count = .ok () ∧ (count = 0 ∨ base + count ≤ 0x1000)) ∨
    (checkRange base count = .error (.addressOutOfRange (max base 0x1000)) ∧ 0 < count ∧ 0x1000 < base + count) := by
  by_cases h : count = 0 ∨ base + count ≤ 0x1000
  · exact .inl ⟨checkRange_ok h, h⟩
  · exact .inr ⟨checkRange_error (by omega) (by omega), by omega, by omega⟩

/-- A fetch inside memory reads two bytes, the first the high byte. -/
theorem State.fetch_ok {s : State} (h : s.pc.toNat ≤ 0xFFE) :
    s.fetch = .ok (s.byteAt s.pc.toNat ++ s.byteAt (s.pc.toNat + 1)) := by
  rw [State.fetch, checkRange_ok (.inr (by omega))]

/-- A fetch past the end of memory reports the least address above it. -/
theorem State.fetch_error {s : State} (h : 0xFFE < s.pc.toNat) :
    s.fetch = .error (.addressOutOfRange (max s.pc.toNat 0x1000)) := by
  rw [State.fetch, checkRange_error (by omega) (by omega)]

/-- What a push can answer. -/
theorem State.push_cases (s : State) (w : Word) :
    (s.push w = .ok { s with stack := w :: s.stack } ∧ s.params.stackDepth ≠ some s.stack.length) ∨
    (s.push w = .error (.stackOverflow s.stack.length) ∧ s.params.stackDepth = some s.stack.length) := by
  by_cases h : s.params.stackDepth = some s.stack.length
  · exact .inr ⟨by simp [State.push, h], h⟩
  · exact .inl ⟨by simp [State.push, h], h⟩

/-! ### Timers -/

theorem tickDown_toNat (c : Byte) : (tickDown c).toNat = c.toNat - 1 := by
  unfold tickDown
  split_ifs with h
  · simp [h]
  · have hc : c.toNat ≠ 0 := fun h0 => h (BitVec.eq_of_toNat_eq (by simpa using h0))
    have := c.isLt
    simp [BitVec.toNat_sub]; omega

end Sys2Proof.Machine
end

