-- ==== Sys2Proof/Laws/Exec.lean ====
section
/-! SUPPORT. What a guarded meaning, the cycle and the step can answer, said once. -/

namespace Sys2Proof.Machine

/-! ### Guarded meanings -/

@[simp] theorem guarded_ok {α : Type} (a : α) (go : α → Result) : guarded (.ok a) go = go a := rfl

@[simp] theorem guarded_error {α : Type} (f : Fault) (go : α → Result) :
    guarded (.error f : Except Fault α) go = .fault f := rfl

/-- What a meaning guarded by a bounds check can answer. -/
theorem guarded_checkRange_cases (base count : Nat) (go : Unit → Result) :
    (guarded (checkRange base count) go = go () ∧ (count = 0 ∨ base + count ≤ 0x1000)) ∨
    (guarded (checkRange base count) go = .fault (.addressOutOfRange (max base 0x1000)) ∧
      0 < count ∧ 0x1000 < base + count) := by
  rcases checkRange_cases base count with ⟨h, hb⟩ | ⟨h, hb⟩
  · exact .inl ⟨by rw [h]; rfl, hb⟩
  · exact .inr ⟨by rw [h]; rfl, hb⟩

/-- What a call can answer (40_flow.md R72). -/
theorem execCall_cases (nnn : Addr) (s : State) :
    (execCall nnn s = .next { s with stack := s.pc :: s.stack, pc := addrWord nnn } ∧
      s.params.stackDepth ≠ some s.stack.length) ∨
    (execCall nnn s = .fault (.stackOverflow s.stack.length) ∧ s.params.stackDepth = some s.stack.length) := by
  unfold execCall
  rcases State.push_cases s s.pc with ⟨h, hd⟩ | ⟨h, hd⟩
  · exact .inl ⟨by rw [h]; rfl, hd⟩
  · exact .inr ⟨by rw [h]; rfl, hd⟩

/-! ### The cycle and the step -/

/-- A cycle whose fetch succeeds and whose word decodes runs the instruction (40_flow.md R70). -/
theorem cycle_of_decode {s : State} {w : Word} {i : Instr} (hf : s.fetch = .ok w) (hd : decode w = .ok i) :
    cycle s = exec i s.advance := by
  simp [cycle, hf, hd]

/-- A cycle whose word is unrecognised only advances `pc` (R79). -/
theorem cycle_of_unrecognized {s : State} {w : Word} {e : DecodeError} (hf : s.fetch = .ok w)
    (hd : decode w = .error e) : cycle s = .next s.advance := by
  simp [cycle, hf, hd]

/-- What a cycle can do. -/
theorem cycle_cases (s : State) :
    (0xFFE < s.pc.toNat ∧ cycle s = .fault (.addressOutOfRange (max s.pc.toNat 0x1000))) ∨
    (s.pc.toNat ≤ 0xFFE ∧ ∃ w, s.fetch = .ok w ∧
      ((∃ i, decode w = .ok i ∧ cycle s = exec i s.advance) ∨
       (decode w = .error (.unrecognized w) ∧ cycle s = .next s.advance))) := by
  by_cases h : s.pc.toNat ≤ 0xFFE
  · refine .inr ⟨h, _, State.fetch_ok h, ?_⟩
    cases hd : decode (s.byteAt s.pc.toNat ++ s.byteAt (s.pc.toNat + 1)) with
    | ok i => exact .inl ⟨i, rfl, cycle_of_decode (State.fetch_ok h) hd⟩
    | error e =>
      obtain rfl := decode_error hd
      exact .inr ⟨rfl, cycle_of_unrecognized (State.fetch_ok h) hd⟩
  · exact .inl ⟨by omega, by simp [cycle, State.fetch_error (show 0xFFE < s.pc.toNat by omega)]⟩

/-- A step is a cycle on the state that what lands before it leaves. -/
theorem step_eq (s : State) : step s = cycle s.beginStep := rfl

/-- What lands before a step: the events at the head of the schedule. -/
theorem State.beginStep_eq (s : State) :
    s.beginStep = deliver { s with schedule := s.schedule.tail, loadable := false } (s.schedule.headD []) := by
  obtain ⟨v, i, pc, stack, dt, st, fb, key, mem, params, draws, schedule, loadable⟩ := s
  cases schedule <;> rfl

/-- Memory and font stay as they are while events land, so every byte does. -/
@[simp] theorem State.byteAt_beginStep (s : State) (a : Nat) : s.beginStep.byteAt a = s.byteAt a :=
  State.byteAt_congr (State.beginStep_mem s) (State.beginStep_params s) a

end Sys2Proof.Machine
end

