-- ==== Sys2Proof/Laws/Display.lean ====
section
/-! SUPPORT. What the sprite engine does to each framebuffer cell (43_display.md), said once. -/

namespace Sys2Proof.Machine

/-- A sprite byte laid from column `x0`: column `c` holds bit `7 - (c - x0)` (R122, R123). -/
theorem spriteRow_getMsbD (x0 : Nat) (byte : Byte) (c : Nat) (hc : c < 64) :
    (spriteRow x0 byte).getMsbD c = (decide (x0 ≤ c ∧ c < x0 + 8) && byte.getLsbD (7 - (c - x0))) := by
  unfold spriteRow
  rw [BitVec.getMsbD_ushiftRight]
  by_cases h : c < x0
  · simp [h]
  · obtain ⟨k, rfl⟩ : ∃ k, c = x0 + k := ⟨c - x0, by omega⟩
    rw [Nat.add_sub_cancel_left, BitVec.getMsbD_append (x := byte)]
    by_cases h8 : k < 8
    · simp [BitVec.getMsbD_eq_getLsbD, h8, show ¬ 8 ≤ k by omega, hc]
    · simp [h8, show 8 ≤ k by omega]

theorem Framebuffer.row_xorRow (fb : Framebuffer) (r k : Nat) (bits : BitVec 64) (hk : k < 32) :
    (fb.xorRow r bits).1.row k = if k = r then fb.row k ^^^ bits else fb.row k := by
  unfold Framebuffer.xorRow Framebuffer.row
  by_cases h : r = k
  · subst h; simp [hk]
  · simp [h, Ne.symm h]

/-- Two framebuffers with the same rows are the same. -/
theorem Framebuffer.ext_rows {fb fb' : Framebuffer} (h : ∀ k < 32, Framebuffer.row fb k = Framebuffer.row fb' k) :
    fb = fb' := by
  apply Vector.ext
  intro k hk
  simpa [Framebuffer.row, hk] using h k hk

/-- Two framebuffers with the same cells are the same. -/
theorem Framebuffer.ext_cells {fb fb' : Framebuffer}
    (h : ∀ r c, r < 32 → c < 64 → Framebuffer.cell fb r c = Framebuffer.cell fb' r c) : fb = fb' := by
  refine Framebuffer.ext_rows fun k hk => BitVec.eq_of_getMsbD_eq fun c hc => h k c hk hc

/-- What a blit leaves in each row: a sprite row XORed into the rows it covers. -/
theorem row_blit (x0 : Nat) (fb : Framebuffer) (r k : Nat) (bytes : List Byte) (hk : k < 32) :
    (blit x0 fb r bytes).1.row k =
      if r ≤ k ∧ k < r + bytes.length then fb.row k ^^^ spriteRow x0 (bytes.getD (k - r) 0) else fb.row k := by
  induction bytes generalizing fb r with
  | nil => simp [blit]
  | cons b rest ih =>
    simp only [blit, List.length_cons]
    rw [ih, Framebuffer.row_xorRow _ _ _ _ hk]
    by_cases h1 : r + 1 ≤ k ∧ k < r + 1 + rest.length
    · rw [if_pos h1, if_neg (by omega), if_pos (by omega), show k - r = (k - (r + 1)) + 1 by omega,
        List.getD_cons_succ]
    · rw [if_neg h1]
      by_cases h2 : k = r
      · subst h2; simp
      · rw [if_neg h2, if_neg (by omega)]

/-- Two rows of bits share a 1 exactly when they do so in some column. -/
theorem and_ne_zero_iff (a b : BitVec 64) :
    (a &&& b) ≠ 0 ↔ ∃ c, c < 64 ∧ a.getMsbD c = true ∧ b.getMsbD c = true := by
  constructor
  · intro h
    by_contra hno
    push Not at hno
    apply h
    apply BitVec.eq_of_getMsbD_eq
    intro c hc
    have := hno c hc
    rw [BitVec.getMsbD_and]
    cases ha : a.getMsbD c <;> simp_all
  · rintro ⟨c, hc, ha, hb⟩ h0
    have := congrArg (fun w => BitVec.getMsbD w c) h0
    simp [BitVec.getMsbD_and, ha, hb] at this

/-- What a blit reports: whether some sprite row shares a 1 with the row it covers. -/
theorem hit_blit (x0 : Nat) (fb : Framebuffer) (r : Nat) (bytes : List Byte) (hr : r + bytes.length ≤ 32) :
    (blit x0 fb r bytes).2 = true ↔
      ∃ j, j < bytes.length ∧ fb.row (r + j) &&& spriteRow x0 (bytes.getD j 0) ≠ 0 := by
  induction bytes generalizing fb r with
  | nil => simp [blit]
  | cons b rest ih =>
    simp only [List.length_cons] at hr ⊢
    simp only [blit, Bool.or_eq_true]
    rw [ih _ _ (by omega)]
    constructor
    · rintro (h | ⟨j, hj, h⟩)
      · exact ⟨0, by omega, by simpa [Framebuffer.xorRow] using h⟩
      · refine ⟨j + 1, by omega, ?_⟩
        rw [Framebuffer.row_xorRow _ _ _ _ (by omega), if_neg (by omega)] at h
        rwa [List.getD_cons_succ, show r + (j + 1) = r + 1 + j by omega]
    · rintro ⟨j, hj, h⟩
      cases j with
      | zero => left; simpa [Framebuffer.xorRow] using h
      | succ j =>
        right
        refine ⟨j, by omega, ?_⟩
        rw [Framebuffer.row_xorRow _ _ _ _ (by omega), if_neg (by omega)]
        rwa [List.getD_cons_succ, show r + (j + 1) = r + 1 + j by omega] at h

end Sys2Proof.Machine
end

