-- ==== Sys2Proof/Laws/PerInstr.lean ====
section
/-! SUPPORT. The per-instruction family `EncodingRow`: the encoding of an instruction is a word of its row of the
opcode table (30_encoding.md R55), one lemma per constructor. -/

namespace Sys2Proof.Laws.EncodingRow

open Sys2Proof

/-- The instruction's row stands in the table and admits the instruction's encoding. -/
def Statement (i : Instr) : Prop := i.row ∈ opcodeRows ∧ i.row.admits (encode i) = true

/-- Every instruction's row stands in the table. -/
theorem row_mem (i : Instr) : i.row ∈ opcodeRows := by
  cases i <;> simp [Instr.row, opcodeRows, opcodeRowsLow, opcodeRowsAlu, opcodeRowsHigh, opcodeRowsMisc]

/-- Format `A` words have the mask `0xF000`. -/
theorem admits_formatA (m : String) (op : Nibble) (nnn : Addr) :
    OpcodeRow.admits ⟨m, 0xF000, formatXY op 0 0 0⟩ (formatA op nnn) = true := by
  simpa [OpcodeRow.admits] using (and_F000_iff _ _).mpr (opField_formatA op nnn)

/-- Format `XI` words have the mask `0xF000`. -/
theorem admits_formatXI (m : String) (op : Nibble) (x : Reg) (nn : Byte) :
    OpcodeRow.admits ⟨m, 0xF000, formatXY op 0 0 0⟩ (formatXI op x nn) = true := by
  simpa [OpcodeRow.admits] using (and_F000_iff _ _).mpr (opField_formatXI op x nn)

/-- Format `XY` words have the mask `0xF00F`. -/
theorem admits_formatXY (m : String) (op : Nibble) (x y : Reg) (n : Nibble) :
    OpcodeRow.admits ⟨m, 0xF00F, formatXY op 0 0 n⟩ (formatXY op x y n) = true := by
  simpa [OpcodeRow.admits] using (and_F00F_iff _ _ _).mpr ⟨opField_formatXY op x y n, nField_formatXY op x y n⟩

/-- Format `XYN` words have the mask `0xF000`. -/
theorem admits_formatXYN (m : String) (op : Nibble) (x y : Reg) (n : Nibble) :
    OpcodeRow.admits ⟨m, 0xF000, formatXY op 0 0 0⟩ (formatXY op x y n) = true := by
  simpa [OpcodeRow.admits] using (and_F000_iff _ _).mpr (opField_formatXY op x y n)

/-- Format `XS` words have the mask `0xF0FF`. -/
theorem admits_formatXS (m : String) (op : Nibble) (x : Reg) (nn : Byte) :
    OpcodeRow.admits ⟨m, 0xF0FF, formatXI op 0 nn⟩ (formatXI op x nn) = true := by
  simpa [OpcodeRow.admits] using (and_F0FF_iff _ _ _).mpr ⟨opField_formatXI op x nn, nnField_formatXI op x nn⟩

theorem cls : Statement .cls := ⟨row_mem _, rfl⟩

theorem ret : Statement .ret := ⟨row_mem _, rfl⟩

theorem jp (nnn : Addr) : Statement (.jp nnn) :=
  ⟨row_mem _, admits_formatA _ 0x1 nnn⟩

theorem call (nnn : Addr) : Statement (.call nnn) :=
  ⟨row_mem _, admits_formatA _ 0x2 nnn⟩

theorem seImm (x : Reg) (nn : Byte) : Statement (.seImm x nn) :=
  ⟨row_mem _, admits_formatXI _ 0x3 x nn⟩

theorem sneImm (x : Reg) (nn : Byte) : Statement (.sneImm x nn) :=
  ⟨row_mem _, admits_formatXI _ 0x4 x nn⟩

theorem seReg (x y : Reg) : Statement (.seReg x y) :=
  ⟨row_mem _, admits_formatXY _ 0x5 x y 0x0⟩

theorem ldImm (x : Reg) (nn : Byte) : Statement (.ldImm x nn) :=
  ⟨row_mem _, admits_formatXI _ 0x6 x nn⟩

theorem addImm (x : Reg) (nn : Byte) : Statement (.addImm x nn) :=
  ⟨row_mem _, admits_formatXI _ 0x7 x nn⟩

theorem ldReg (x y : Reg) : Statement (.ldReg x y) :=
  ⟨row_mem _, admits_formatXY _ 0x8 x y 0x0⟩

theorem orReg (x y : Reg) : Statement (.orReg x y) :=
  ⟨row_mem _, admits_formatXY _ 0x8 x y 0x1⟩

theorem andReg (x y : Reg) : Statement (.andReg x y) :=
  ⟨row_mem _, admits_formatXY _ 0x8 x y 0x2⟩

theorem xorReg (x y : Reg) : Statement (.xorReg x y) :=
  ⟨row_mem _, admits_formatXY _ 0x8 x y 0x3⟩

theorem addReg (x y : Reg) : Statement (.addReg x y) :=
  ⟨row_mem _, admits_formatXY _ 0x8 x y 0x4⟩

theorem subReg (x y : Reg) : Statement (.subReg x y) :=
  ⟨row_mem _, admits_formatXY _ 0x8 x y 0x5⟩

theorem shr (x y : Reg) : Statement (.shr x y) :=
  ⟨row_mem _, admits_formatXY _ 0x8 x y 0x6⟩

theorem subn (x y : Reg) : Statement (.subn x y) :=
  ⟨row_mem _, admits_formatXY _ 0x8 x y 0x7⟩

theorem shl (x y : Reg) : Statement (.shl x y) :=
  ⟨row_mem _, admits_formatXY _ 0x8 x y 0xE⟩

theorem sneReg (x y : Reg) : Statement (.sneReg x y) :=
  ⟨row_mem _, admits_formatXY _ 0x9 x y 0x0⟩

theorem ldI (nnn : Addr) : Statement (.ldI nnn) :=
  ⟨row_mem _, admits_formatA _ 0xA nnn⟩

theorem jpV0 (nnn : Addr) : Statement (.jpV0 nnn) :=
  ⟨row_mem _, admits_formatA _ 0xB nnn⟩

theorem rnd (x : Reg) (nn : Byte) : Statement (.rnd x nn) :=
  ⟨row_mem _, admits_formatXI _ 0xC x nn⟩

theorem drw (x y : Reg) (n : Nibble) : Statement (.drw x y n) :=
  ⟨row_mem _, admits_formatXYN _ 0xD x y n⟩

theorem skp (x : Reg) : Statement (.skp x) :=
  ⟨row_mem _, admits_formatXS _ 0xE x 0x9E⟩

theorem sknp (x : Reg) : Statement (.sknp x) :=
  ⟨row_mem _, admits_formatXS _ 0xE x 0xA1⟩

theorem ldVxDT (x : Reg) : Statement (.ldVxDT x) :=
  ⟨row_mem _, admits_formatXS _ 0xF x 0x07⟩

theorem ldVxK (x : Reg) : Statement (.ldVxK x) :=
  ⟨row_mem _, admits_formatXS _ 0xF x 0x0A⟩

theorem ldDTVx (x : Reg) : Statement (.ldDTVx x) :=
  ⟨row_mem _, admits_formatXS _ 0xF x 0x15⟩

theorem ldSTVx (x : Reg) : Statement (.ldSTVx x) :=
  ⟨row_mem _, admits_formatXS _ 0xF x 0x18⟩

theorem addI (x : Reg) : Statement (.addI x) :=
  ⟨row_mem _, admits_formatXS _ 0xF x 0x1E⟩

theorem ldF (x : Reg) : Statement (.ldF x) :=
  ⟨row_mem _, admits_formatXS _ 0xF x 0x29⟩

theorem ldB (x : Reg) : Statement (.ldB x) :=
  ⟨row_mem _, admits_formatXS _ 0xF x 0x33⟩

theorem storeRegs (x : Reg) : Statement (.storeRegs x) :=
  ⟨row_mem _, admits_formatXS _ 0xF x 0x55⟩

theorem loadRegs (x : Reg) : Statement (.loadRegs x) :=
  ⟨row_mem _, admits_formatXS _ 0xF x 0x65⟩

end Sys2Proof.Laws.EncodingRow
end

