-- ==== Sys2Proof/Tests/Slice0.lean ====
section
/-! SUPPORT. The model's own tests: one written-out word per constructor, ill-formed words and numerals refused, one
step per instruction from the vectors of 95_test_vectors.md (named in each comment), and for every statement with
hypotheses a state that meets them. Expected values are the spec's, or worked out by hand from its rules. -/

namespace Sys2Proof.Tests

open Sys2Proof Sys2Proof.Machine

/-! ### Decoding: each word written out from the formats and selectors of 30_encoding.md R52, R55 -/

theorem test_decode_cls : decode 0b0000000011100000 = .ok .cls := by decide
theorem test_decode_ret : decode 0b0000000011101110 = .ok .ret := by decide
theorem test_decode_jp : decode 0b0001101010111100 = .ok (.jp 0xABC) := by decide
theorem test_decode_call : decode 0b0010001000001010 = .ok (.call 0x20A) := by decide
theorem test_decode_seImm : decode 0b0011001100101010 = .ok (.seImm 3 0x2A) := by decide
theorem test_decode_sneImm : decode 0b0100001100101011 = .ok (.sneImm 3 0x2B) := by decide
theorem test_decode_seReg : decode 0b0101000100100000 = .ok (.seReg 1 2) := by decide
theorem test_decode_ldImm : decode 0b0110101000111100 = .ok (.ldImm 10 0x3C) := by decide
theorem test_decode_addImm : decode 0b0111000100001010 = .ok (.addImm 1 0x0A) := by decide
theorem test_decode_ldReg : decode 0b1000000100100000 = .ok (.ldReg 1 2) := by decide
theorem test_decode_orReg : decode 0b1000000100100001 = .ok (.orReg 1 2) := by decide
theorem test_decode_andReg : decode 0b1000000100100010 = .ok (.andReg 1 2) := by decide
theorem test_decode_xorReg : decode 0b1000000100100011 = .ok (.xorReg 1 2) := by decide
theorem test_decode_addReg : decode 0b1000111100010100 = .ok (.addReg 15 1) := by decide
theorem test_decode_subReg : decode 0b1000000111110101 = .ok (.subReg 1 15) := by decide
theorem test_decode_shr : decode 0b1000000100100110 = .ok (.shr 1 2) := by decide
theorem test_decode_subn : decode 0b1000000100100111 = .ok (.subn 1 2) := by decide
theorem test_decode_shl : decode 0b1000000100101110 = .ok (.shl 1 2) := by decide
theorem test_decode_sneReg : decode 0b1001000100100000 = .ok (.sneReg 1 2) := by decide
theorem test_decode_ldI : decode 0b1010001000110100 = .ok (.ldI 0x234) := by decide
theorem test_decode_jpV0 : decode 0b1011001011110000 = .ok (.jpV0 0x2F0) := by decide
theorem test_decode_rnd : decode 0b1100001100001111 = .ok (.rnd 3 0x0F) := by decide
theorem test_decode_drw : decode 0b1101000000010101 = .ok (.drw 0 1 5) := by decide
theorem test_decode_skp : decode 0b1110000110011110 = .ok (.skp 1) := by decide
theorem test_decode_sknp : decode 0b1110000110100001 = .ok (.sknp 1) := by decide
theorem test_decode_ldVxDT : decode 0b1111001100000111 = .ok (.ldVxDT 3) := by decide
theorem test_decode_ldVxK : decode 0b1111001000001010 = .ok (.ldVxK 2) := by decide
theorem test_decode_ldDTVx : decode 0b1111000100010101 = .ok (.ldDTVx 1) := by decide
theorem test_decode_ldSTVx : decode 0b1111000100011000 = .ok (.ldSTVx 1) := by decide
theorem test_decode_addI : decode 0b1111001000011110 = .ok (.addI 2) := by decide
theorem test_decode_ldF : decode 0b1111000000101001 = .ok (.ldF 0) := by decide
theorem test_decode_ldB : decode 0b1111000000110011 = .ok (.ldB 0) := by decide
theorem test_decode_storeRegs : decode 0b1111111101010101 = .ok (.storeRegs 15) := by decide
theorem test_decode_loadRegs : decode 0b1111001001100101 = .ok (.loadRegs 2) := by decide

/-- Vector S1: `[0xA2, 0x34]` is the word `0xA234`; the byte after it is left. -/
theorem test_decodeBytes_bigEndian : decodeBytes [0xA2, 0x34, 0x7F] = .ok (.ldI 0x234, [0x7F]) := by decide

theorem test_decodeBytes_truncated : decodeBytes [0xA2] = .error .truncated := by decide

/-- 30_encoding.md R61: an image holds each word high byte first. -/
theorem test_encodeBytes_bigEndian : encodeBytes (.ldI 0x234) = [0xA2, 0x34] := by decide

theorem test_decodeTableWord : decodeTableWord 16 0x220A = some (.call 0x20A) := by decide

theorem test_decodeTableWord_refuses : decodeTableWord 16 0x8128 = none := by decide

/-! ### Ill-formed terms are refused -/

/-- 95_test_vectors.md 2.4: a word beside each pattern is well formed in no row. -/
theorem test_wellFormed_refuses_words :
    ([0x0000, 0x00E1, 0x01E0, 0x0FEE, 0x5121, 0x9121, 0x8128, 0x812F, 0xE19F, 0xE1A0, 0xF100, 0xF11F, 0xF185,
      0xFFFF] : List Word).all (fun w => !WellFormed.word w) = true := by decide

/-- The decoder refuses the same words, each by name. -/
theorem test_decode_refuses_words :
    ([0x0000, 0x00E1, 0x01E0, 0x0FEE, 0x5121, 0x9121, 0x8128, 0x812F, 0xE19F, 0xE1A0, 0xF100, 0xF11F, 0xF185,
      0xFFFF] : List Word).all (fun w => decide (decode w = .error (.unrecognized w))) = true := by decide

theorem test_wellFormed_accepts_words :
    ([0x00E0, 0x00EE, 0x5120, 0x9120, 0x8120, 0x8127, 0x812E, 0xE19E, 0xE1A1, 0xF107, 0xF165] : List Word).all
      WellFormed.word = true := by decide

theorem test_wellFormed_reg : WellFormed.reg? 15 = some 15 ∧ WellFormed.reg? 16 = none := by decide

theorem test_wellFormed_numeral_8 :
    WellFormed.numeral? 8 0xFF = some 0xFF ∧ WellFormed.numeral? 8 0x100 = none := by decide

theorem test_wellFormed_numeral_12 :
    WellFormed.numeral? 12 0xFFF = some 0xFFF ∧ WellFormed.numeral? 12 0x1000 = none := by decide

theorem test_wellFormed_numeral_4 : WellFormed.numeral? 4 15 = some 15 ∧ WellFormed.numeral? 4 16 = none := by decide

/-! ### Helpers -/

/-- What a look at the next state sees; nothing on a fault or a refusal. -/
def after {α : Type} (r : Result) (look : State → α) : Option α :=
  match r with
  | .next t => some (look t)
  | .fault _ => none
  | .refused _ => none

/-- The fault an outcome reports, if it is one. -/
def faultOf (r : Result) : Option Fault :=
  match r with
  | .next _ => none
  | .fault f => some f
  | .refused _ => none

/-- The state of the vectors: reset, changed, and the word under test where the next step fetches. -/
def start (w : Nat) (change : State → State) : State := (change State.reset).withFetchWord 16 w

/-- One step on it. -/
def run (w : Nat) (change : State → State) : Result := step (start w change)

/-- Several registers set. -/
def regs (l : List (Reg × Byte)) (s : State) : State := l.foldl (fun t p => t.setReg p.1 p.2) s

/-- Cells (0,0) and (31,63) lit. -/
def corners (s : State) : State := { s with fb := (s.fb.set 0 0x8000000000000000).set 31 1 }

/-- Cell (0,1) lit. -/
def second (s : State) : State := { s with fb := s.fb.set 0 0x4000000000000000 }

/-- A `JP` in the last two bytes of memory, `pc` there, a tick scheduled before the next step. -/
def last : State := { start 0x1ABC (fun s => s.setPc 0xFFE) with schedule := [[.delayTick]] }

/-- A finite `STACK_DEPTH` and the entries on the stack, the top first. -/
def stacked (depth : Nat) (l : List Word) (s : State) : State :=
  { s with stack := l, params := { s.params with stackDepth := some depth } }

/-- A stack of depth 1 that is full. -/
def full : State := stacked 1 [0x300] State.reset

/-- Glyph 0 drawn at the origin. -/
def glyphDrawn : State := (after (exec (.drw 0 0 5) (State.reset.setIndex 0x050)) id).getD State.reset

/-! ### One step per instruction -/

/-- Vector W1: two lit cells go, `VF` stays. -/
theorem test_cls :
    after (run 0x00E0 (fun s => corners (s.setReg 15 1))) (fun t => (t.fb.cell 0 0, t.fb.cell 31 63, t.reg 15)) =
    some (false, false, 1) := by decide

/-- Vector J11: last in, first out. -/
theorem test_ret : after (run 0x00EE (fun s => { s with stack := [0x208, 0x202] })) (fun t => (t.stack, t.pc)) =
    some ([0x202], 0x208) := by decide

/-- Vector J10: nothing but the advance. -/
theorem test_ret_empty :
    after (run 0x00EE (fun s => s.setPc 0x20C)) (fun t => (t.stack, t.pc)) = some ([], 0x20E) := by decide

/-- Vector J1. -/
theorem test_jp : after (run 0x1ABC id) (fun t => t.pc) = some 0xABC := by decide

/-- Vector J3: the jump itself runs. -/
theorem test_jp_end : after (run 0x1FFF id) (fun t => t.pc) = some 0xFFF := by decide

/-- Vector J5 (the top entry is written first here). -/
theorem test_call : after (run 0x2222 (stacked 2 [0x300]))
    (fun t => (t.stack, t.pc)) = some ([0x202, 0x300], 0x222) := by decide

/-- Vector J6. -/
theorem test_call_overflow : faultOf (run 0x2222 (stacked 2 [0x400, 0x300])) =
    some (.stackOverflow 2) := by decide

/-- Vectors K1, K2. -/
theorem test_seImm : after (run 0x332A (regs [(3, 0x2A)])) (fun t => t.pc) = some 0x204 ∧
    after (run 0x332B (regs [(3, 0x2A)])) (fun t => t.pc) = some 0x202 := by decide

/-- Vector K11. -/
theorem test_seImm_end : after (run 0x3000 (fun s => s.setPc 0xFFE)) (fun t => t.pc) = some 0x1002 := by decide

/-- Vectors K3, K4. -/
theorem test_sneImm : after (run 0x432A (regs [(3, 0x2A)])) (fun t => t.pc) = some 0x202 ∧
    after (run 0x432B (regs [(3, 0x2A)])) (fun t => t.pc) = some 0x204 := by decide

/-- Vectors K5, K6. -/
theorem test_seReg : after (run 0x5120 (regs [(1, 7), (2, 7)])) (fun t => t.pc) = some 0x204 ∧
    after (run 0x5120 (regs [(1, 7), (2, 8)])) (fun t => t.pc) = some 0x202 := by decide

/-- Vectors K8, K9. -/
theorem test_sneReg : after (run 0x9120 (regs [(1, 7), (2, 8)])) (fun t => t.pc) = some 0x204 ∧
    after (run 0x9120 (regs [(1, 7), (2, 7)])) (fun t => t.pc) = some 0x202 := by decide

/-- Vector A2. -/
theorem test_ldImm : after (run 0x6FAB id) (fun t => (t.reg 15, t.pc)) = some (0xAB, 0x202) := by decide

/-- Vector A3: no flag. -/
theorem test_addImm :
    after (run 0x710A (regs [(1, 0xFA)])) (fun t => (t.reg 1, t.reg 15)) = some (0x04, 0) := by decide

/-- Vector A6: `VF` as destination wraps, no flag. -/
theorem test_addImm_vf : after (run 0x7F01 (regs [(15, 0xFF)])) (fun t => t.reg 15) = some 0x00 := by decide

/-- Vector A7. -/
theorem test_ldReg :
    after (run 0x8120 (regs [(2, 0x55)])) (fun t => (t.reg 1, t.reg 2)) = some (0x55, 0x55) := by decide

/-- Vector A8. -/
theorem test_orReg :
    after (run 0x8121 (regs [(1, 0xF0), (2, 0x3C), (15, 1)])) (fun t => (t.reg 1, t.reg 15)) = some (0xFC, 1) := by
  decide

/-- Vector A9. -/
theorem test_andReg :
    after (run 0x8122 (regs [(1, 0xF0), (2, 0x3C), (15, 1)])) (fun t => (t.reg 1, t.reg 15)) = some (0x30, 1) := by
  decide

/-- Vector A10. -/
theorem test_xorReg :
    after (run 0x8123 (regs [(1, 0xF0), (2, 0x3C), (15, 1)])) (fun t => (t.reg 1, t.reg 15)) = some (0xCC, 1) := by
  decide

/-- Vectors A13 and S3: sums 255 and 256. -/
theorem test_addReg :
    after (run 0x8124 (regs [(1, 0x64), (2, 0x9B), (15, 1)])) (fun t => (t.reg 1, t.reg 15)) = some (0xFF, 0) ∧
    after (run 0x8124 (regs [(1, 0x64), (2, 0x9C)])) (fun t => (t.reg 1, t.reg 15)) = some (0x00, 1) := by decide

/-- Vectors A16, A17: the flag is written last; the old `VF` is the operand. -/
theorem test_addReg_vf : after (run 0x8F14 (regs [(15, 0x10), (1, 0x20)])) (fun t => t.reg 15) = some 0 ∧
    after (run 0x81F4 (regs [(1, 0xFF), (15, 1)])) (fun t => (t.reg 1, t.reg 15)) = some (0x00, 1) := by decide

/-- Vectors A18, A19. -/
theorem test_subReg : after (run 0x8125 (regs [(1, 5), (2, 3)])) (fun t => (t.reg 1, t.reg 15)) = some (2, 1) ∧
    after (run 0x8125 (regs [(1, 3), (2, 5)])) (fun t => (t.reg 1, t.reg 15)) = some (0xFE, 0) := by decide

/-- Vectors A20, A22. -/
theorem test_subReg_equal :
    after (run 0x8125 (regs [(1, 5), (2, 5), (15, 1)])) (fun t => (t.reg 1, t.reg 15)) = some (0, 0) ∧
    after (run 0x8F15 (regs [(15, 5), (1, 3)])) (fun t => t.reg 15) = some 1 := by decide

/-- Vector A26: `vy` is not used. -/
theorem test_shr :
    after (run 0x8126 (regs [(1, 4), (2, 0xFF), (15, 1)])) (fun t => (t.reg 1, t.reg 2, t.reg 15)) =
      some (2, 0xFF, 0) := by
  decide

/-- Vector A29: the shifted value is lost. -/
theorem test_shr_vf : after (run 0x8F16 (regs [(15, 2)])) (fun t => t.reg 15) = some 0 := by decide

/-- Vectors A30, A31. -/
theorem test_subn : after (run 0x8127 (regs [(1, 3), (2, 5)])) (fun t => (t.reg 1, t.reg 15)) = some (2, 1) ∧
    after (run 0x8127 (regs [(1, 5), (2, 3)])) (fun t => (t.reg 1, t.reg 15)) = some (0xFE, 0) := by decide

/-- Vectors A32, A33. -/
theorem test_subn_equal :
    after (run 0x8127 (regs [(1, 5), (2, 5), (15, 1)])) (fun t => (t.reg 1, t.reg 15)) = some (0, 0) ∧
    after (run 0x8F17 (regs [(15, 3), (1, 5)])) (fun t => t.reg 15) = some 1 := by decide

/-- Vector A34. -/
theorem test_shl :
    after (run 0x812E (regs [(1, 0x81)])) (fun t => (t.reg 1, t.reg 2, t.reg 15)) = some (0x02, 0, 1) := by decide

/-- Vector A37. -/
theorem test_shl_vf : after (run 0x8FFE (regs [(15, 0x7F)])) (fun t => t.reg 15) = some 0 := by decide

/-- Vector M1. -/
theorem test_ldI : after (run 0xAFFF id) (fun t => t.i) = some 0x0FFF := by decide

/-- Vector J14: no reduction to 12 bits. -/
theorem test_jpV0 : after (run 0xBFFF (regs [(0, 0xFF)])) (fun t => t.pc) = some 0x10FE := by decide

/-- Vector J15. -/
theorem test_jpV0_onlyV0 : after (run 0xB2F0 (regs [(0, 0x10), (2, 0xFF)])) (fun t => t.pc) = some 0x300 := by decide

/-- Vector A38, for every draw: the register gets the drawn byte masked. -/
theorem test_rnd : after (run 0xC30F id) (fun t => t.reg 3) = some (Config.randomByte 0 &&& 0x0F) := rfl

/-- Vector A39: mask 0. -/
theorem test_rnd_zero : after (run 0xC300 id) (fun t => t.reg 3) = some 0 := by
  show some (Config.randomByte 0 &&& 0#8) = some 0
  rw [BitVec.and_zero]
  rfl

/-- Vector W5: rows below the framebuffer are dropped. -/
theorem test_drw_bottom :
    after (run 0xD015 (fun s => (regs [(1, 30)] (s.setIndex 0x300)).storeBytes 0x300 [0x80, 0x80, 0x80, 0x80, 0x80]))
    (fun t => (t.fb.cell 30 0, t.fb.cell 31 0, t.fb.cell 0 0, t.fb.cell 2 0, t.reg 15)) =
    some (true, true, false, false, 0) := by decide

/-- Vector W6: one pixel collides, one is set. -/
theorem test_drw_collide : after (run 0xD001 (fun s => second ((s.setIndex 0x300).storeBytes 0x300 [0xC0])))
    (fun t => (t.fb.cell 0 0, t.fb.cell 0 1, t.reg 15)) = some (true, false, 1) := by decide

/-- Vectors T1, T4: `vx` is not masked. -/
theorem test_skp : after (run 0xE19E (fun s => (regs [(1, 5)] s).writeKey (some 5))) (fun t => t.pc) = some 0x204 ∧
    after (run 0xE19E (fun s => (regs [(1, 0x15)] s).writeKey (some 5))) (fun t => t.pc) = some 0x202 := by decide

/-- Vector T3: no key is not key 0. -/
theorem test_skp_none : after (run 0xE19E id) (fun t => t.pc) = some 0x202 := by decide

/-- Vectors T5, T8. -/
theorem test_sknp : after (run 0xE1A1 (fun s => (regs [(1, 5)] s).writeKey (some 5))) (fun t => t.pc) = some 0x202 ∧
    after (run 0xE1A1 (fun s => (regs [(1, 0x15)] s).writeKey (some 5))) (fun t => t.pc) = some 0x204 := by decide

/-- Vector T7. -/
theorem test_sknp_none : after (run 0xE1A1 id) (fun t => t.pc) = some 0x204 := by decide

/-- Vector T13. -/
theorem test_ldVxDT :
    after (run 0xF307 (fun s => { s with dt := 0x2A })) (fun t => (t.reg 3, t.dt)) = some (0x2A, 0x2A) := by decide

/-- Vector T9. -/
theorem test_ldVxK_wait : after (run 0xF20A id) (fun t => (t.pc, t.reg 2)) = some (0x200, 0) ∧
    cycleStatus (start 0xF20A id) = some .awaitingInput := by decide

/-- Vector T11: the latch keeps the key. -/
theorem test_ldVxK :
    after (run 0xF20A (fun s => s.writeKey (some 15))) (fun t => (t.reg 2, t.key, t.pc)) =
      some (0x0F, some 15, 0x202) := by
  decide

/-- Vector T14. -/
theorem test_ldDTVx :
    after (run 0xF115 (fun s => regs [(1, 0x3C)] { s with dt := 7 })) (fun t => t.dt) = some 0x3C := by decide

/-- Vectors T16, T17. -/
theorem test_ldSTVx : after (run 0xF118 (regs [(1, 5)])) (fun t => (t.st, soundActive t)) = some (5, true) ∧
    after (run 0xF118 (fun s => { s with st := 9 })) (fun t => (t.st, soundActive t)) = some (0, false) := by decide

/-- Vectors M2, M3. -/
theorem test_addI :
    after (run 0xF21E (fun s => regs [(2, 0x0F), (15, 1)] (s.setIndex 0xFF0))) (fun t => (t.i, t.reg 15)) =
      some (0x0FFF, 0) ∧
    after (run 0xF21E (fun s => regs [(2, 0x10)] (s.setIndex 0xFF0))) (fun t => (t.i, t.reg 15)) =
      some (0x1000, 1) := by
  decide

/-- Vectors M5, M6. -/
theorem test_addI_wrap :
    after (run 0xF01E (fun s => regs [(0, 1)] (s.setIndex 0xFFFF))) (fun t => (t.i, t.reg 15)) = some (0x0000, 1) ∧
    after (run 0xFF1E (fun s => regs [(15, 0x10)] (s.setIndex 0xFF8))) (fun t => (t.i, t.reg 15)) =
      some (0x1008, 1) := by
  decide

/-- Vectors M10, M12. -/
theorem test_ldF : after (run 0xF029 (regs [(0, 0x0F)])) (fun t => t.i) = some 0x009B ∧
    after (run 0xF029 (regs [(0, 0xFF)])) (fun t => t.i) = some 0x054B := by decide

/-- Vector M17. -/
theorem test_ldB : after (run 0xF033 (fun s => regs [(0, 255)] (s.setIndex 0xFFD)))
    (fun t => (t.byteAt 0xFFD, t.byteAt 0xFFE, t.byteAt 0xFFF)) = some (2, 5, 5) := by decide

/-- Vectors M18, M19. -/
theorem test_ldB_fault :
    faultOf (run 0xF033 (fun s => regs [(0, 255)] (s.setIndex 0xFFE))) = some (.addressOutOfRange 0x1000) ∧
    faultOf (run 0xF033 (fun s => s.setIndex 0x1005)) = some (.addressOutOfRange 0x1005) := by decide

/-- Vector M20. -/
theorem test_storeRegs :
    after (run 0xF255 (fun s => regs [(0, 0x11), (1, 0x22), (2, 0x33), (3, 0x44)] (s.setIndex 0x400)))
    (fun t => (t.byteAt 0x400, t.byteAt 0x401, t.byteAt 0x402, t.byteAt 0x403, t.i)) =
    some (0x11, 0x22, 0x33, 0, 0x400) := by decide

/-- Vector M23. -/
theorem test_storeRegs_fault :
    faultOf (run 0xFF55 (fun s => s.setIndex 0xFF1)) = some (.addressOutOfRange 0x1000) := by decide

/-- Vector M24. -/
theorem test_loadRegs :
    after (run 0xF265 (fun s => (regs [(3, 0x77)] (s.setIndex 0x300)).storeBytes 0x300 [2, 5, 4, 9]))
    (fun t => (t.reg 0, t.reg 1, t.reg 2, t.reg 3, t.i)) = some (2, 5, 4, 0x77, 0x300) := by decide

/-- Vector M27, its last byte: `VF` is loaded too. -/
theorem test_loadRegs_font :
    after (run 0xFF65 (fun s => s.setIndex 0x050)) (fun t => (t.reg 1, t.reg 5, t.reg 15)) =
      some (0x90, 0x20, 0xF0) := by
  decide

/-! ### The step, ticks, load, memory -/

/-- Vector F3. -/
theorem test_fetch_last :
    after (run 0x6A01 (fun s => s.setPc 0xFFE)) (fun t => (t.reg 10, t.pc)) = some (1, 0x1000) := by decide

/-- Vectors F5, F4, F6. -/
theorem test_fetch_pastEnd : faultOf (step (State.reset.setPc 0xFFF)) = some (.addressOutOfRange 0x1000) ∧
    faultOf (step (State.reset.setPc 0x1000)) = some (.addressOutOfRange 0x1000) ∧
    faultOf (step (State.reset.setPc 0x10FE)) = some (.addressOutOfRange 0x10FE) := by decide

/-- Vector F8, first step. -/
theorem test_unrecognized :
    after (step State.reset) (fun t => t.pc) = some 0x202 ∧ cycleStatus State.reset = some (.unrecognized 0) := by
  decide

/-- 44_keypad_timers.md R143: a tick and a key write before a step are seen by it. -/
theorem test_schedule :
    after (run 0xF307 (fun s => { s with dt := 1, schedule := [[.keyPort (some 4), .delayTick], [.soundTick]] }))
    (fun t => (t.reg 3, t.key, t.schedule)) = some (0, some 4, [[.soundTick]]) := by decide

/-- Vectors T18 to T21. -/
theorem test_ticks : (Event.apply { State.reset with dt := 1, st := 1 } .delayTick).dt = 0 ∧
    (Event.apply { State.reset with dt := 1, st := 1 } .soundTick).st = 0 ∧
    (Event.apply State.reset .delayTick).dt = 0 ∧
    (Event.apply { State.reset with dt := 255 } .delayTick).dt = 254 := by
  decide

/-- Vector L3. -/
theorem test_load :
    after (loadPort [0xA2, 0x34] State.reset) (fun t => (t.byteAt 0x200, t.byteAt 0x201, t.byteAt 0x202, t.pc)) =
    some (0xA2, 0x34, 0, 0x200) := by decide

/-- Vector L5. -/
theorem test_load_tooLarge :
    loadPort (List.replicate 3585 0) State.reset = .fault (.imageTooLarge 3585) := by
  have h : (List.replicate 3585 (0 : Byte)).length = 3585 := List.length_replicate
  unfold loadPort
  rw [if_neg (by decide), if_pos (by rw [h]; decide), h]
  rfl

/-- Program P6, step 2: the fault leaves `pc` and memory as they were. -/
theorem test_request_fault : (request (start 0xF033 (fun s => s.setIndex 0xFFE))).2 = some (.fault 1 0x1000) ∧
    (request (start 0xF033 (fun s => s.setIndex 0xFFE))).1.pc = 0x200 := by decide

/-- Vector L6: reset discards the program. -/
theorem test_reset_after_run :
    (assertReset (start 0x1200 id)).byteAt 0x200 = 0 ∧ (assertReset (start 0x1200 id)).byteAt 0x050 = 0xF0 := by
  decide

/-- Writing the power-on contents takes the cell off the list again. -/
theorem test_memory_canonical :
    ((State.reset.storeByte 0x300 7).storeByte 0x300 0).mem = [] ∧ (State.reset.storeByte 0x050 0xF0).mem = [] ∧
    ((State.reset.storeByte 0x301 7).storeByte 0x300 9).mem = [(0x300, 9), (0x301, 7)] := by decide

/-- What the canonical form refuses: no order, a cell equal to its power-on contents, an address past the end. -/
theorem test_memory_notWf :
    Memory.wf customaryFont [(0x301, 7), (0x300, 9)] = false ∧ Memory.wf customaryFont [(0x050, 0xF0)] = false ∧
    Memory.wf customaryFont [(0x1000, 1)] = false ∧ Memory.wf customaryFont [(0x300, 9), (0x301, 7)] = true := by
  decide

/-! ### Witnesses: states and operands that meet the hypotheses of the statements -/

/-- A word that decodes; also for the second clause of `DecodeFollowsOpcodeTable`. -/
theorem witness_EncodeOfDecode :
    decode 0x1ABC = .ok (.jp 0xABC) := by decide

/-- A fetched word that does not decode. -/
theorem witness_UnrecognizedWordsAreNops :
    State.reset.fetch = .ok 0x0000 ∧ decode 0x0000 = .error (.unrecognized 0x0000) := by decide

/-- A scheduled tick before a `JP` in the last two bytes of memory. -/
theorem witness_StepRunsDecodedInstruction :
    ∃ e, e = deliver { last with schedule := last.schedule.tail, loadable := false } (last.schedule.headD []) ∧
      e.pc.toNat ≤ 0xFFE ∧ decode (e.byteAt e.pc.toNat ++ e.byteAt (e.pc.toNat + 1)) = .ok (.jp 0xABC) :=
  ⟨_, rfl, by decide, by decide⟩

/-- Both branches and the top of the range a run reaches. -/
theorem witness_FetchPastEndFaults :
    0xFFE < (State.reset.setPc 0xFFF).pc.toNat ∧ 0xFFE < (State.reset.setPc 0x1000).pc.toNat ∧
      0xFFE < (State.reset.setPc 0x10FE).pc.toNat := by decide

/-- A faulting cycle, and next states of an unrecognised word, of a waiting `Fx0A` and of a jump. -/
theorem witness_StatusOfEachCycle :
    (∃ f, cycle (State.reset.setPc 0xFFF) = .fault f) ∧
      (∃ t, cycle State.reset = .next t ∧ State.reset.fetch = .ok 0x0000) ∧
      (∃ t, cycle (start 0xF20A id) = .next t ∧ (start 0xF20A id).fetch = .ok 0xF20A) ∧
      (∃ t, cycle (start 0x1ABC id) = .next t ∧ (start 0x1ABC id).fetch = .ok 0x1ABC) :=
  ⟨⟨_, rfl⟩, ⟨_, rfl, by decide⟩, ⟨_, rfl, by decide⟩, ⟨_, rfl, by decide⟩⟩

/-- A full stack, and one with a place left: the two branches; the second also for `ReturnUndoesCall`. -/
theorem witness_CallPushesReturnAddress :
    (full.params.stackDepth = some full.stack.length) ∧
      ¬ ({ full with stack := [] }.params.stackDepth = some ({ full with stack := [] } : State).stack.length) := by
  decide

/-- The last digit's last byte. -/
theorem witness_GlyphOfDigitAfterReset :
    defaultParams.fontStride = .five ∧ 15 < 16 ∧ 4 < 5 := by decide

/-- The last base that fits and the first that does not. -/
theorem witness_StoreDecimalDigits :
    ¬ 0xFFF < (State.reset.setIndex 0xFFD).i.toNat + 2 ∧ 0xFFF < (State.reset.setIndex 0xFFE).i.toNat + 2 := by decide

/-- The last base at which 16 registers fit and the first at which they do not; also for `LoadRegistersThroughX`. -/
theorem witness_StoreRegistersThroughX :
    ¬ 0xFFF < (State.reset.setIndex 0xFF0).i.toNat + (15 : Reg).val ∧
      0xFFF < (State.reset.setIndex 0xFF1).i.toNat + (15 : Reg).val := by decide

/-- The clauses over `k` of the two: `k` at `x`, and `k` above it. -/
theorem witness_registersClauses :
    (14 : Reg) ≤ 14 ∧ (14 : Reg) < 15 := by decide

/-- Completed stores around the word at `pc`, the last of memory: `F155` over both bytes, `F055` on the low byte
only, `F155` from the byte before, `F033` whose tens and ones, and whose ones, fall in it; and `F033` whose hundreds
fall in the word at `0x300`. -/
theorem witness_FetchSeesTheStore :
    last.pc.toNat ≤ 0xFFE ∧ (∃ t, exec (.storeRegs 1) (last.setIndex 0xFFE) = .next t) ∧
      (∃ t, exec (.storeRegs 0) (last.setIndex 0xFFF) = .next t) ∧
      (∃ t, exec (.storeRegs 1) (last.setIndex 0xFFD) = .next t) ∧
      (∃ t, exec (.ldB 0) (last.setIndex 0xFFD) = .next t) ∧ (∃ t, exec (.ldB 0) (last.setIndex 0xFFC) = .next t) ∧
      (∃ t, exec (.ldB 0) ((last.setPc 0x300).setIndex 0x300) = .next t) :=
  ⟨by decide, ⟨_, rfl⟩, ⟨_, rfl⟩, ⟨_, rfl⟩, ⟨_, rfl⟩, ⟨_, rfl⟩, ⟨_, rfl⟩⟩

/-- The branches at their boundary: one row at the last byte is drawn, two rows there fault, none never does. -/
theorem witness_DrawXorsClippedSprite :
    ¬ (0 < min 1 (32 - 0) ∧ 0xFFF < (State.reset.setIndex 0xFFF).i.toNat + min 1 (32 - 0) - 1) ∧
      (0 < min 2 (32 - 0) ∧ 0xFFF < (State.reset.setIndex 0xFFF).i.toNat + min 2 (32 - 0) - 1) ∧
      ¬ (0 < min 0 (32 - 0) ∧ 0xFFF < (State.reset.setIndex 0x1234).i.toNat + min 0 (32 - 0) - 1) := by decide

/-- The clause of a collision: glyph 0 over its own picture. -/
theorem witness_DrawXorsClippedSprite_lit :
    ∃ r c, r < 32 ∧ c < 64 ∧ glyphDrawn.spriteBitAt 0 0 5 r c = true ∧ glyphDrawn.fb.cell r c = true :=
  ⟨0, 0, by decide⟩

/-- The clause of no collision: glyph 0 over a clear framebuffer. -/
theorem witness_DrawXorsClippedSprite_clear :
    ∀ r c, r < 32 → c < 64 → (State.reset.setIndex 0x050).spriteBitAt 0 0 5 r c = true →
      (State.reset.setIndex 0x050).fb.cell r c = false := fun r c hr _ _ => by
  simp [State.setIndex, State.reset, State.resetWith, Framebuffer.cell, Framebuffer.row, hr]

/-- The clause `x ≠ 0xF` of the flag-writing statements and of `FlagRegisterDiscipline`, at its boundary. -/
theorem witness_flagClauses :
    (14 : Reg) ≠ 0xF := by decide

/-- Glyph 0 drawn at the origin of a clear framebuffer. -/
theorem witness_DrawTwiceRestores :
    ∃ t, exec (.drw 0 0 5) (State.reset.setIndex 0x050) = .next t ∧
      t.reg 0 = (State.reset.setIndex 0x050).reg 0 ∧
      (State.reset.setIndex 0x050).fb = Framebuffer.blank ∧ t.fb ≠ (State.reset.setIndex 0x050).fb :=
  ⟨_, rfl, by decide, by decide, by decide⟩

/-- A wait: no key down and the word at `pc` is `F20A`. -/
theorem witness_KeyWait :
    (start 0xF20A id).key = none ∧ (start 0xF20A id).fetch = .ok 0xF20A ∧ decode 0xF20A = .ok (.ldVxK 2) := by decide

/-- An event that is no sound tick. -/
theorem witness_SoundOutput :
    Event.delayTick ≠ Event.soundTick := by decide

/-- Each faulting instruction at the boundary of its range, faulting and not. -/
theorem witness_FaultsAreTheListed :
    (∃ f, exec (.call 0x222) full = .fault f) ∧ (∃ f, exec (.ldB 0) (State.reset.setIndex 0xFFE) = .fault f) ∧
      (∃ t, exec (.ldB 0) (State.reset.setIndex 0xFFD) = .next t) ∧
      (∃ f, exec (.storeRegs 1) (State.reset.setIndex 0xFFF) = .fault f) ∧
      (∃ f, exec (.loadRegs 1) (State.reset.setIndex 0xFFF) = .fault f) ∧
      (∃ f, exec (.drw 0 0 2) (State.reset.setIndex 0xFFF) = .fault f) :=
  ⟨⟨_, rfl⟩, ⟨_, rfl⟩, ⟨_, rfl⟩, ⟨_, rfl⟩, ⟨_, rfl⟩, ⟨_, rfl⟩⟩

/-- A step that faults in its execute phase; also for `FaultRepeats`. -/
theorem witness_FaultIsPrecise :
    step (start 0xF033 (fun s => s.setIndex 0xFFE)) = .fault (.addressOutOfRange 0x1000) := rfl

/-- The largest image on the open port. -/
theorem witness_LoadCopiesImage :
    State.reset.loadable = true ∧ (List.replicate 3584 (0x12 : Byte)).length ≤ 3584 := ⟨rfl, List.length_replicate.le⟩

/-- Image L3 of the vectors, and the longest rest. -/
theorem witness_FirstStepRunsLoadedWord :
    defaultParams.resetPc = 0x200 ∧ (List.replicate 3582 (0 : Byte)).length ≤ 3582 ∧
      decode ((0xA2 : Byte) ++ (0x34 : Byte)) = .ok (.ldI 0x234) := ⟨rfl, List.length_replicate.le, by decide⟩

/-- Each of the three clauses. -/
theorem witness_LoadOnlyOnceAndOnlyIfItFits :
    (State.reset.loadable = true ∧ 3584 < (List.replicate 3585 (0x12 : Byte)).length) ∧
      (∃ t, loadPort [0x12, 0x00] State.reset = .next t) ∧ (∃ t, step State.reset = .next t) :=
  ⟨⟨rfl, by rw [List.length_replicate]; decide⟩, ⟨_, rfl⟩, ⟨_, rfl⟩⟩

/-- Vector J2, and a jump to itself in the last word. -/
theorem witness_TerminalIsFixedPoint :
    terminal (start 0x1200 id) = true ∧ terminal (start 0x1FFE (fun s => s.setPc 0xFFE)) = true := by decide

/-- An instruction with a next state; also for `FlagRegisterDiscipline` and the second clause of
`SoundAndKeyAreNotRead`. -/
theorem witness_EachPartHasItsWriters :
    (∃ t, exec (.addReg 1 2) State.reset = .next t) ∧ (∃ t, exec (.ldImm 1 0x3C) State.reset = .next t) ∧
      (∃ t, exec (.addI 1) State.reset = .next t) ∧ (∃ t, exec (.loadRegs 14) State.reset = .next t) ∧
      (∃ t, exec .cls State.reset = .next t) := ⟨⟨_, rfl⟩, ⟨_, rfl⟩, ⟨_, rfl⟩, ⟨_, rfl⟩, ⟨_, rfl⟩⟩

/-- A changed `ST` and `KEY`, on a faulting and on a completing instruction. -/
theorem witness_SoundAndKeyAreNotRead :
    ∃ s', s' = { State.reset.setIndex 0xFFE with st := 9, key := some 4 } ∧
      (∃ f, exec (.ldB 0) (State.reset.setIndex 0xFFE) = .fault f) ∧
      (∃ t, exec (.ldSTVx 0) (State.reset.setIndex 0xFFE) = .next t) := ⟨_, rfl, ⟨_, rfl⟩, ⟨_, rfl⟩⟩

/-- The highest `RESET_PC` of the premise. -/
theorem witness_ResetMeetsInvariant :
    ({ defaultParams with resetPc := 0x10FE } : Params).resetPc.toNat ≤ 0x10FE := by decide

/-- Reset meets the invariant and its step ends in a next state; also for `HostMovesKeepInvariant`. -/
theorem witness_StepKeepsInvariant :
    State.reset.Inv ∧ (∃ t, step State.reset = .next t) ∧ (∃ t, loadPort [0x12, 0x00] State.reset = .next t) ∧
      State.reset.params.resetPc.toNat ≤ 0x10FE :=
  ⟨⟨rfl, fun _ _ => Nat.zero_le _, (fun _ h => nomatch h), by decide⟩, ⟨_, rfl⟩, ⟨_, rfl⟩, by decide⟩

end Sys2Proof.Tests
end

section
/-! The load port and the first step after it (20_memory.md R34, 70_reset_and_hazards.md R173), and the sample words
of the opcode table (30_encoding.md R55). -/

namespace Sys2Proof.Machine

/-! ### The load port -/

/-- The state an accepted load leaves (70_reset_and_hazards.md R173), as `loadPort_of_fits` says. -/
def State.withImage (s : State) (image : List Byte) : State :=
  { s.storeBytes Config.progBase image with loadable := false }

@[simp] theorem State.withImage_pc (s : State) (image : List Byte) : (s.withImage image).pc = s.pc :=
  State.storeBytes_pc s Config.progBase image

@[simp] theorem State.withImage_schedule (s : State) (image : List Byte) :
    (s.withImage image).schedule = s.schedule :=
  State.storeBytes_schedule s Config.progBase image

@[simp] theorem State.withImage_loadable (s : State) (image : List Byte) : (s.withImage image).loadable = false := rfl

/-- The bytes of a loaded image stand in their order from `0x200` on. -/
theorem State.byteAt_withImage (s : State) {image : List Byte} {k : Nat} (hk : k < image.length) :
    (s.withImage image).byteAt (Config.progBase + k) = image[k] := by
  have hkeep : (s.withImage image).byteAt (Config.progBase + k) =
      (s.storeBytes Config.progBase image).byteAt (Config.progBase + k) := State.byteAt_congr rfl rfl _
  rw [hkeep, State.byteAt_storeBytes, if_pos (by omega), Nat.add_sub_cancel_left, List.getD_eq_getElem _ _ hk]

/-- What an open load port answers to an image that fits. -/
theorem loadPort_of_fits {s : State} {image : List Byte} (hopen : s.loadable = true)
    (hfits : image.length ≤ Config.progMax) : loadPort image s = .next (s.withImage image) := by
  rw [loadPort, if_neg (by simp [hopen]), if_neg (Nat.not_lt.mpr hfits), State.withImage]

/-! ### A step before which nothing lands -/

/-- With nothing scheduled and the load port closed, a step request changes nothing before its cycle. -/
theorem State.beginStep_of_idle {s : State} (hidle : s.schedule = []) (hclosed : s.loadable = false) :
    s.beginStep = s := by
  cases s
  cases hidle
  cases hclosed
  rfl

/-- A step that finds an instruction's word at `pc` runs the instruction on the state whose `pc` is 2 further
(40_flow.md R70). -/
theorem step_of_idle {s : State} {i : Instr} (hidle : s.schedule = []) (hclosed : s.loadable = false)
    (hpc : s.pc.toNat ≤ 0xFFE) (hdecode : decode (s.byteAt s.pc.toNat ++ s.byteAt (s.pc.toNat + 1)) = .ok i) :
    step s = exec i s.advance := by
  rw [step_eq, State.beginStep_of_idle hidle hclosed, cycle_of_decode (State.fetch_ok hpc) hdecode]

/-! ### The obligations -/

/-- Settles O50: the image's first two bytes stand at `0x200` and `0x201`, where the step after the load fetches. -/
theorem firstStepRunsLoadedWord : Obligations.FirstStepRunsLoadedWord := by
  intro p hi lo rest i hresetPc hrest hdecode
  let t := (State.resetWith p).withImage (hi :: lo :: rest)
  have hload : loadPort (hi :: lo :: rest) (State.resetWith p) = .next t :=
    loadPort_of_fits rfl (Nat.add_le_add_right hrest 2)
  have hpc : t.pc = 0x200 := (State.withImage_pc _ _).trans hresetPc
  have hhi : t.byteAt 0x200 = hi := State.byteAt_withImage _ (image := hi :: lo :: rest) (k := 0) (by simp)
  have hlo : t.byteAt 0x201 = lo := State.byteAt_withImage _ (image := hi :: lo :: rest) (k := 1) (by simp)
  have hadvance : t.advance = { t with pc := 0x202 } := by rw [State.advance, hpc]; rfl
  have hword : decode (t.byteAt t.pc.toNat ++ t.byteAt (t.pc.toNat + 1)) = .ok i := by
    rw [hpc, show (0x200 : Word).toNat = 0x200 from rfl, hhi, hlo, hdecode]
  refine ⟨t, hload, hpc, ?_⟩
  rw [← hadvance]
  exact step_of_idle (State.withImage_schedule _ _) rfl (by rw [hpc]; decide) hword

/-- Settles O1: each list of rows, and each rejected word, is a closed run of the decoder. -/
theorem sampleWordsDecode : Obligations.SampleWordsDecode :=
  ⟨by decide, by decide, by decide, by decide, by decide, by decide, by decide⟩

end Sys2Proof.Machine
end

section
/-! The encoder against the decoder (30_encoding.md R50 to R56): a word laid out in a format is the word whose fields
are the operands, so the instruction of a word's fields is the one that encodes to the word. -/

namespace Sys2Proof

/-! ### The words of a format -/

/-- Format `A`. -/
theorem formatA_eq_word_iff (w : Word) (op : Nibble) (nnn : Addr) :
    formatA op nnn = w ↔ opField w = op ∧ nnn = nnnField w := by
  constructor
  · rintro rfl
    exact ⟨opField_formatA .., (nnnField_formatA ..).symm⟩
  · rintro ⟨rfl, rfl⟩
    exact formatA_fields w

/-- Format `XI`. -/
theorem formatXI_eq_word_iff (w : Word) (op : Nibble) (x : Reg) (nn : Byte) :
    formatXI op x nn = w ↔ opField w = op ∧ x = xField w ∧ nn = nnField w := by
  constructor
  · rintro rfl
    exact ⟨opField_formatXI .., (xField_formatXI ..).symm, (nnField_formatXI ..).symm⟩
  · rintro ⟨rfl, rfl, rfl⟩
    exact formatXI_fields w

/-- Format `XS`: the low byte is a selector. -/
theorem formatXI_eq_word_iff_selector (w : Word) (op : Nibble) (x : Reg) (nn : Byte) :
    formatXI op x nn = w ↔ (opField w = op ∧ nnField w = nn) ∧ x = xField w := by
  rw [formatXI_eq_word_iff, and_assoc, and_comm (a := x = _), eq_comm (a := nn)]

/-- Format `XYN`. -/
theorem formatXY_eq_word_iff (w : Word) (op : Nibble) (x y : Reg) (n : Nibble) :
    formatXY op x y n = w ↔ opField w = op ∧ x = xField w ∧ y = yField w ∧ n = nField w := by
  constructor
  · rintro rfl
    exact ⟨opField_formatXY .., (xField_formatXY ..).symm, (yField_formatXY ..).symm, (nField_formatXY ..).symm⟩
  · rintro ⟨rfl, rfl, rfl, rfl⟩
    exact formatXY_fields w

/-- Format `XY`: the low nibble is a selector. -/
theorem formatXY_eq_word_iff_selector (w : Word) (op : Nibble) (x y : Reg) (n : Nibble) :
    formatXY op x y n = w ↔ (opField w = op ∧ nField w = n) ∧ x = xField w ∧ y = yField w := by
  rw [formatXY_eq_word_iff, ← and_assoc (a := x = _), and_comm (b := n = _), ← and_assoc, eq_comm (a := n)]

/-! ### The encoder, format by format -/

/-- The instruction of a word's fields is the one that encodes to the word: each row of R55 is its format's lemma. -/
theorem isOf_iff_encode_eq (w : Word) (i : Instr) : i.IsOf w ↔ encode i = w := by
  cases i with
  | cls | ret => exact eq_comm
  | jp | call | ldI | jpV0 => exact (formatA_eq_word_iff ..).symm
  | seImm | sneImm | ldImm | addImm | rnd => exact (formatXI_eq_word_iff ..).symm
  | skp | sknp | ldVxDT | ldVxK | ldDTVx | ldSTVx | addI | ldF | ldB | storeRegs | loadRegs =>
    exact (formatXI_eq_word_iff_selector ..).symm
  | drw => exact (formatXY_eq_word_iff ..).symm
  | seReg | ldReg | orReg | andReg | xorReg | addReg | subReg | shr | subn | shl | sneReg =>
    exact (formatXY_eq_word_iff_selector ..).symm

/-- A word decodes to the instruction that encodes to it and to nothing else. -/
theorem decode_ok_iff_encode_eq (w : Word) (i : Instr) : decode w = .ok i ↔ encode i = w :=
  (decode_ok_iff w i).trans (isOf_iff_encode_eq w i)

theorem decode_encode (i : Instr) : decode (encode i) = .ok i :=
  (decode_ok_iff_encode_eq _ i).mpr rfl

/-- The two bytes of an instruction, high byte first, decode to it and leave what follows them (R50). -/
theorem decodeBytes_encodeBytes_append (i : Instr) (rest : List Byte) :
    decodeBytes (encodeBytes i ++ rest) = .ok (i, rest) := by
  simp only [encodeBytes, List.cons_append, List.nil_append, decodeBytes, wordOfBytes_bytes, decode_encode]

/-! ### The obligations -/

/-- Settles O2: an encoding has its instruction's operands as fields, and its two bytes make the word again. -/
theorem decodeOfEncode : Obligations.DecodeOfEncode := fun i rest =>
  ⟨decode_encode i, decodeBytes_encodeBytes_append i rest⟩

/-- Settles O3: a word that decodes is laid out from its own fields, `y` of the shifts included (R56). -/
theorem encodeOfDecode : Obligations.EncodeOfDecode := fun w i =>
  (decode_ok_iff_encode_eq w i).mp

end Sys2Proof
end

section
/-! Control flow (40_flow.md): the row of an instruction as the masks of R55 pick it out, the frames of a jump, a skip
and a return, and what a step and each of these instructions does. -/

namespace Sys2Proof.Machine

/-! ### Rows of the opcode table -/

/-- A row decodes to an instruction when its mask and match ask for the same fields of the word as the instruction. -/
theorem rowDecodesTo_of_fields {mask pattern : Word} {instrOf : Word → Instr} {fields : Word → Prop}
    (hmask : ∀ w, w &&& mask = pattern ↔ fields w) (hinstr : ∀ w, (instrOf w).IsOf w ↔ fields w) :
    RowDecodesTo mask pattern instrOf := fun w =>
  (hmask w).trans ((hinstr w).symm.trans (decode_ok_iff w _).symm)

/-! ### Frames -/

@[simp] theorem UnchangedBut.refl (regs : List Reg) (parts : List Part) (s : State) :
    UnchangedBut regs parts s s := by
  simp [UnchangedBut]

theorem unchangedBut_setPc (s : State) (w : Word) : UnchangedBut [] [.pc] s (s.setPc w) := by
  simp [UnchangedBut, State.reg_congr (State.setPc_v s w),
    State.byteAt_congr (State.setPc_mem s w) (State.setPc_params s w)]

theorem unchangedBut_skipIf (s : State) (c : Bool) : UnchangedBut [] [.pc] s (s.skipIf c) := by
  cases c with
  | false => exact UnchangedBut.refl _ _ s
  | true => exact unchangedBut_setPc s (s.pc + 2)

theorem unchangedBut_popPc (s : State) : UnchangedBut [] [.pc, .stack] s s.popPc := by
  simp [UnchangedBut, State.reg_congr (State.popPc_v s), State.byteAt_congr (State.popPc_mem s) (State.popPc_params s)]

/-! ### Skips -/

/-- What an instruction that is a skip does (40_flow.md section 3): it completes, and `pc` goes 2 further exactly when
its condition holds. -/
theorem exec_skip {i : Instr} {s : State} {c : Bool} {p : Prop} [Decidable p] (hexec : exec i s = .next (s.skipIf c))
    (hc : c = true ↔ p) :
    ∃ t, exec i s = .next t ∧ t.pc = (if p then s.pc + 2 else s.pc) ∧ UnchangedBut [] [.pc] s t :=
  ⟨s.skipIf c, hexec, by simp only [State.skipIf_pc, hc], unchangedBut_skipIf s c⟩

/-! ### The obligations -/

/-- Settles O6: `e` is the state the step's cycle starts from, and its fetch succeeds. -/
theorem stepRunsDecodedInstruction : Obligations.StepRunsDecodedInstruction := by
  intro s e i he hpc hdecode
  rw [← State.beginStep_eq] at he
  subst he
  exact cycle_of_decode (State.fetch_ok hpc) hdecode

/-- Settles O11: the jump is one write of `pc`, and 12 bits fit in it. -/
theorem jumpSetsPc : Obligations.JumpSetsPc := by
  refine ⟨rowDecodesTo_of_fields (and_F000_iff · 0x1) fun _ => and_iff_left rfl, fun nnn s => ?_⟩
  have hpc : (addrWord nnn).toNat = nnn.toNat := BitVec.toNat_setWidth_of_le (by decide)
  exact ⟨s.setPc (addrWord nnn), rfl, hpc, unchangedBut_setPc s _⟩

/-- Settles O13, by the two cases of the stack. -/
theorem returnPopsOrDoesNothing : Obligations.ReturnPopsOrDoesNothing := by
  refine ⟨rowDecodesTo_of_fields (and_FFFF_iff · 0x00EE) fun _ => Iff.rfl,
    fun s => ⟨s.popPc, rfl, ?_, unchangedBut_popPc s, rfl⟩⟩
  cases hstack : s.stack with
  | nil => simp [hstack]
  | cons top rest => simp [hstack]

/-- Settles O16: both are skips, on the byte test and on its negation. -/
theorem immediateSkips : Obligations.ImmediateSkips :=
  ⟨rowDecodesTo_of_fields (and_F000_iff · 0x3) fun _ => and_iff_left ⟨rfl, rfl⟩,
    rowDecodesTo_of_fields (and_F000_iff · 0x4) fun _ => and_iff_left ⟨rfl, rfl⟩,
    fun _ _ _ => ⟨exec_skip rfl beq_iff_eq, exec_skip rfl bne_iff_ne⟩⟩

/-- Settles O17: both are skips; nothing asks whether `x` and `y` are the same register. -/
theorem registerSkips : Obligations.RegisterSkips :=
  ⟨rowDecodesTo_of_fields (and_F00F_iff · 0x5 0x0) fun _ => and_iff_left ⟨rfl, rfl⟩,
    rowDecodesTo_of_fields (and_F00F_iff · 0x9 0x0) fun _ => and_iff_left ⟨rfl, rfl⟩,
    fun _ _ _ => ⟨exec_skip rfl beq_iff_eq, exec_skip rfl bne_iff_ne⟩⟩

end Sys2Proof.Machine
end

section
/-! Register ALU (41_alu.md): each instruction either writes one register or writes one and then `VF`. What each of the
two shapes does is said once, then when each flag is set; an obligation names its instructions' results and flags. -/

namespace Sys2Proof.Machine

/-! ### Frames -/

/-- A new register file that agrees with the old one outside `regs` is a change of `regs` alone. -/
theorem unchangedBut_registers {s : State} {regs : List Reg} {v : Vector Byte 16}
    (hregs : ∀ r, r ∉ regs → State.reg { s with v := v } r = s.reg r) :
    UnchangedBut regs [] s { s with v := v } := by
  have hmem : ∀ a, State.byteAt { s with v := v } a = s.byteAt a := State.byteAt_congr rfl rfl
  simpa [UnchangedBut, hmem] using hregs

theorem unchangedBut_setReg (s : State) (x : Reg) (b : Byte) : UnchangedBut [x] [] s (s.setReg x b) :=
  unchangedBut_registers fun _ hr => s.reg_setReg_of_ne b (List.ne_of_not_mem_cons hr)

theorem unchangedBut_setRegFlag (s : State) (x : Reg) (b : Byte) (c : Bool) :
    UnchangedBut [x, 0xF] [] s (s.setRegFlag x b c) := by
  refine unchangedBut_registers fun r hr => ?_
  obtain ⟨hx, hf⟩ : r ≠ x ∧ r ≠ 0xF := by simpa using hr
  exact (s.reg_setRegFlag x r b c).trans ((if_neg hf).trans (if_neg hx))

/-! ### The two shapes of an ALU instruction -/

/-- An instruction that writes one register completes, and `VF` changes only as its destination (41_alu.md R90). -/
theorem exec_writesReg {i : Instr} {s : State} {x : Reg} {b : Byte} (hexec : exec i s = .next (s.setReg x b)) :
    ∃ t, exec i s = .next t ∧ t.reg x = b ∧ UnchangedBut [x] [] s t :=
  ⟨s.setReg x b, hexec, s.reg_setReg_self x b, unchangedBut_setReg s x b⟩

/-- An instruction that writes a register and then the flag completes, and with `x = 0xF` the flag is what stays
(41_alu.md R90 item 6). -/
theorem exec_writesRegFlag {i : Instr} {s : State} {x : Reg} {b : Byte} {c : Bool} {n : Nat} {p : Prop} [Decidable p]
    (hexec : exec i s = .next (s.setRegFlag x b c)) (hb : b.toNat = n) (hc : c = true ↔ p) :
    ∃ t, exec i s = .next t ∧ (x ≠ 0xF → (t.reg x).toNat = n) ∧ t.reg 0xF = (if p then 1 else 0) ∧
      UnchangedBut [x, 0xF] [] s t := by
  refine ⟨s.setRegFlag x b c, hexec, fun hx => ?_, ?_, unchangedBut_setRegFlag s x b c⟩
  · rw [State.reg_setRegFlag, if_neg hx, if_pos rfl, hb]
  · simp only [State.reg_setRegFlag, if_pos, hc]

/-! ### Flags and results -/

theorem carryFlag_iff (a b : Byte) : carryFlag a b = true ↔ 255 < a.toNat + b.toNat := decide_eq_true_iff

theorem greaterFlag_iff (a b : Byte) : greaterFlag a b = true ↔ b.toNat < a.toNat := decide_eq_true_iff

theorem lowBitFlag_iff (a : Byte) : lowBitFlag a = true ↔ a.toNat % 2 = 1 := by
  simp [lowBitFlag, BitVec.getLsbD, Nat.testBit_zero]

theorem highBitFlag_iff (a : Byte) : highBitFlag a = true ↔ 128 ≤ a.toNat := by
  have hmsb : a.msb = highBitFlag a := BitVec.msb_eq_getLsbD_last a
  rw [← hmsb, BitVec.msb_eq_decide, decide_eq_true_iff]

/-- The difference of two bytes, as the obligations write it. -/
theorem toNat_byte_sub (a b : Byte) : (a - b).toNat = (a.toNat + 256 - b.toNat) % 256 := by
  rw [BitVec.toNat_sub]
  have := b.isLt
  omega

theorem toNat_byte_shiftRight_one (a : Byte) : (a >>> 1).toNat = a.toNat / 2 := by
  rw [BitVec.toNat_ushiftRight, Nat.shiftRight_one]

theorem toNat_byte_shiftLeft_one (a : Byte) : (a <<< 1).toNat = a.toNat * 2 % 256 := by
  rw [BitVec.toNat_shiftLeft, Nat.shiftLeft_eq]

/-! ### The obligations -/

/-- Settles O18: both write one register, and a sum of bytes is a sum modulo 256. -/
theorem immediateLoadAndAdd : Obligations.ImmediateLoadAndAdd := by
  refine ⟨rowDecodesTo_of_fields (and_F000_iff · 0x6) fun _ => and_iff_left ⟨rfl, rfl⟩,
    rowDecodesTo_of_fields (and_F000_iff · 0x7) fun _ => and_iff_left ⟨rfl, rfl⟩,
    fun x nn s => ⟨exec_writesReg rfl, ?_⟩⟩
  obtain ⟨t, hexec, hreg, hframe⟩ := exec_writesReg (i := .addImm x nn) (s := s) rfl
  exact ⟨t, hexec, by rw [hreg, BitVec.toNat_add], hframe⟩

/-- Settles O19: each writes its result to one register; nothing asks whether `x` and `y` are the same register. -/
theorem copyAndXor : Obligations.CopyAndXor :=
  ⟨rowDecodesTo_of_fields (and_F00F_iff · 0x8 0x0) fun _ => and_iff_left ⟨rfl, rfl⟩,
    rowDecodesTo_of_fields (and_F00F_iff · 0x8 0x2) fun _ => and_iff_left ⟨rfl, rfl⟩,
    rowDecodesTo_of_fields (and_F00F_iff · 0x8 0x3) fun _ => and_iff_left ⟨rfl, rfl⟩,
    fun _ _ _ => ⟨exec_writesReg rfl, exec_writesReg rfl, exec_writesReg rfl⟩⟩

/-- Settles O21: the sum and the carry are both of the old operands. -/
theorem addWithCarry : Obligations.AddWithCarry :=
  ⟨rowDecodesTo_of_fields (and_F00F_iff · 0x8 0x4) fun _ => and_iff_left ⟨rfl, rfl⟩,
    fun _ _ _ => exec_writesRegFlag rfl (BitVec.toNat_add ..) (carryFlag_iff ..)⟩

/-- Settles O22: the two differ only in which operand is the minuend. -/
theorem subtractBothWays : Obligations.SubtractBothWays :=
  ⟨rowDecodesTo_of_fields (and_F00F_iff · 0x8 0x5) fun _ => and_iff_left ⟨rfl, rfl⟩,
    rowDecodesTo_of_fields (and_F00F_iff · 0x8 0x7) fun _ => and_iff_left ⟨rfl, rfl⟩,
    fun _ _ _ => ⟨exec_writesRegFlag rfl (toNat_byte_sub ..) (greaterFlag_iff ..),
      exec_writesRegFlag rfl (toNat_byte_sub ..) (greaterFlag_iff ..)⟩⟩

/-- Settles O23: `V[y]` has no part in either, and the bit shifted out is one of the old `V[x]`. -/
theorem shiftsInPlace : Obligations.ShiftsInPlace :=
  ⟨rowDecodesTo_of_fields (and_F00F_iff · 0x8 0x6) fun _ => and_iff_left ⟨rfl, rfl⟩,
    rowDecodesTo_of_fields (and_F00F_iff · 0x8 0xE) fun _ => and_iff_left ⟨rfl, rfl⟩,
    fun _ _ _ => ⟨exec_writesRegFlag rfl (toNat_byte_shiftRight_one _) (lowBitFlag_iff _),
      exec_writesRegFlag rfl (toNat_byte_shiftLeft_one _) (highBitFlag_iff _)⟩⟩

end Sys2Proof.Machine
end

section
/-! Index register (42_index_memory.md): the width of an address operand in a word, the frame of a write to `I`, and
what `Annn` does. -/

namespace Sys2Proof.Machine

/-- An address operand is zero-extended: its value fits in the word (42_index_memory.md R110). -/
theorem addrWord_toNat (nnn : Addr) : (addrWord nnn).toNat = nnn.toNat :=
  BitVec.toNat_setWidth_of_le (by decide)

theorem unchangedBut_setIndex (s : State) (w : Word) : UnchangedBut [] [.index] s (s.setIndex w) := by
  simp [UnchangedBut, State.reg_congr (State.setIndex_v s w),
    State.byteAt_congr (State.setIndex_mem s w) (State.setIndex_params s w)]

/-- Settles O25: the instruction is one write of `I`, and 12 bits fit in it. -/
theorem loadIndex : Obligations.LoadIndex :=
  ⟨rowDecodesTo_of_fields (and_F000_iff · 0xA) fun _ => and_iff_left rfl,
    fun nnn s => ⟨s.setIndex (addrWord nnn), rfl, addrWord_toNat nnn, unchangedBut_setIndex s _⟩⟩

end Sys2Proof.Machine
end

section
/-! Display (43_display.md): what a blank framebuffer's rows and cells read as, the frame of a write to the framebuffer,
and what `00E0` does. -/

namespace Sys2Proof.Machine

/-- A row past the last reads as 0 as well, so this asks nothing of `r`. -/
@[simp] theorem Framebuffer.row_blank (r : Nat) : Framebuffer.blank.row r = 0 := by
  rw [Framebuffer.row, Framebuffer.blank, Vector.getElem?_replicate]
  split <;> rfl

@[simp] theorem Framebuffer.cell_blank (r c : Nat) : Framebuffer.blank.cell r c = false := by
  rw [Framebuffer.cell, Framebuffer.row_blank, BitVec.ofNat_eq_ofNat, BitVec.getMsbD_zero]

theorem unchangedBut_display (s : State) (fb : Framebuffer) : UnchangedBut [] [.display] s { s with fb := fb } := by
  have hreg : ∀ r, State.reg { s with fb := fb } r = s.reg r := State.reg_congr rfl
  have hmem : ∀ a, State.byteAt { s with fb := fb } a = s.byteAt a := State.byteAt_congr rfl rfl
  simp [UnchangedBut, hreg, hmem]

/-- Settles O33: the instruction is one write of the framebuffer, which it leaves blank. -/
theorem clearScreen : Obligations.ClearScreen :=
  ⟨rowDecodesTo_of_fields (and_FFFF_iff · 0x00E0) fun _ => Iff.rfl,
    fun s => ⟨{ s with fb := Framebuffer.blank }, rfl, Framebuffer.cell_blank, unchangedBut_display s _⟩⟩

end Sys2Proof.Machine
end

section
/-! Key wait, timers and sound output (44_keypad_timers.md): the frames of a write to `DT` and to `ST`, what a run of
delay ticks leaves, the two cases of `Fx0A`, and when `sound_active` is 1. -/

namespace Sys2Proof.Machine

/-! ### Frames -/

theorem unchangedBut_delay (s : State) (c : Byte) : UnchangedBut [] [.delay] s { s with dt := c } := by
  have hreg : ∀ r, State.reg { s with dt := c } r = s.reg r := State.reg_congr rfl
  have hmem : ∀ a, State.byteAt { s with dt := c } a = s.byteAt a := State.byteAt_congr rfl rfl
  simp [UnchangedBut, hreg, hmem]

theorem unchangedBut_sound (s : State) (c : Byte) : UnchangedBut [] [.sound] s { s with st := c } := by
  have hreg : ∀ r, State.reg { s with st := c } r = s.reg r := State.reg_congr rfl
  have hmem : ∀ a, State.byteAt { s with st := c } a = s.byteAt a := State.byteAt_congr rfl rfl
  simp [UnchangedBut, hreg, hmem]

/-! ### Ticks -/

/-- A tick as the rules write it (44_keypad_timers.md R141, R142): the truncated difference of `tickDown_toNat` is the
test for a counter above zero. -/
theorem tickDown_toNat_ite (c : Byte) : (tickDown c).toNat = if 0 < c.toNat then c.toNat - 1 else 0 := by
  rw [tickDown_toNat]
  split <;> omega

/-- `k` ticks never take a counter below 0. -/
theorem tickDown_iterate_toNat (c : Byte) (k : Nat) : (tickDown^[k] c).toNat = c.toNat - k := by
  induction k with
  | zero => rfl
  | succ k ih => rw [Function.iterate_succ_apply', tickDown_toNat, ih, Nat.sub_sub]

/-- A run of delay ticks is a run of ticks of `DT` alone. -/
theorem deliver_replicate_delayTick (s : State) (k : Nat) :
    deliver s (List.replicate k .delayTick) = { s with dt := tickDown^[k] s.dt } := by
  induction k generalizing s with
  | zero => rfl
  | succ k ih => exact ih s.delayTick

/-! ### The sound output -/

theorem soundActive_iff (s : State) : soundActive s = true ↔ 0 < s.st.toNat := by
  rw [soundActive, bne_iff_ne, ne_eq, ← BitVec.toNat_inj]
  exact Nat.pos_iff_ne_zero.symm

theorem Event.apply_st_of_ne {e : Event} (s : State) (he : e ≠ .soundTick) : (Event.apply s e).st = s.st := by
  cases e with
  | delayTick => rfl
  | soundTick => exact absurd rfl he
  | keyPort k => rfl

/-! ### The key wait -/

/-- A key's identifier fits in the byte (44_keypad_timers.md R132). -/
theorem keyByte_toNat (k : Key) : (keyByte k).toNat = k.val :=
  Nat.mod_eq_of_lt (k.isLt.trans (by decide))

theorem exec_ldVxK_of_none {s : State} (x : Reg) (hkey : s.key = none) :
    exec (.ldVxK x) s = .next (s.setPc (s.pc - 2)) := by
  simp only [exec, execLdVxK, hkey]

theorem exec_ldVxK_of_some {s : State} {k : Key} (x : Reg) (hkey : s.key = some k) :
    exec (.ldVxK x) s = .next (s.setReg x (keyByte k)) := by
  simp only [exec, execLdVxK, hkey]

theorem completionStatus_ldVxK (x : Reg) (s : State) :
    completionStatus (.ldVxK x) s = if s.key = none then .awaitingInput else .executed := rfl

/-- Going back by 2 undoes the advance of a step, at every `pc` (44_keypad_timers.md R132). -/
theorem State.advance_setPc_sub (s : State) : s.advance.setPc (s.advance.pc - 2) = s := by
  have hpc : s.pc + 2 - 2 = s.pc := BitVec.add_sub_cancel s.pc 2
  rw [State.advance, State.setPc_pc, hpc]
  rfl

/-- The execute phase of a waiting cycle puts back the state the cycle started from. -/
theorem exec_ldVxK_advance {s : State} (x : Reg) (hkey : s.key = none) :
    exec (.ldVxK x) s.advance = .next s := by
  rw [exec_ldVxK_of_none (s := s.advance) x hkey, State.advance_setPc_sub]

/-- A cycle whose word decodes reports the status of its execute phase (60_exceptions.md R159). -/
theorem cycleStatus_of_decode {s : State} {w : Word} {i : Instr} (hfetch : s.fetch = .ok w)
    (hdecode : decode w = .ok i) :
    cycleStatus s = outcomeStatus (completionStatus i s.advance) (exec i s.advance) := by
  simp only [cycleStatus, hfetch, hdecode]

/-! ### The obligations -/

/-- Settles O40: the ticks after `Fx15` are ticks of the byte it wrote, and `Fx15` and each of them is one write of
`DT`. -/
theorem delayCountdown : Obligations.DelayCountdown := by
  intro x s k
  refine ⟨{ s with dt := s.reg x }, rfl, ?_⟩
  rw [deliver_replicate_delayTick]
  exact ⟨tickDown_iterate_toNat (s.reg x) k, unchangedBut_delay s _⟩

/-- Settles O37, by the two cases of the key latch; the whole cycle of a wait goes 2 forward and 2 back. -/
theorem keyWait : Obligations.KeyWait := by
  refine ⟨rowDecodesTo_of_fields (and_F0FF_iff · 0xF 0x0A) fun _ => and_iff_left rfl, fun x s => ⟨?_, ?_⟩⟩
  · cases hkey : s.key with
    | none =>
      refine ⟨s.setPc (s.pc - 2), exec_ldVxK_of_none x hkey, rfl, unchangedBut_setPc s _, ?_⟩
      rw [completionStatus_ldVxK, if_pos hkey]
    | some k =>
      refine ⟨s.setReg x (keyByte k), exec_ldVxK_of_some x hkey, ?_, unchangedBut_setReg s x _, ?_⟩
      · rw [State.reg_setReg_self, keyByte_toNat]
      · rw [completionStatus_ldVxK, if_neg (by simp [hkey])]
  · intro w hkey hfetch hdecode
    have hexec : exec (.ldVxK x) s.advance = .next s := exec_ldVxK_advance x hkey
    have hstatus : completionStatus (.ldVxK x) s.advance = .awaitingInput := if_pos hkey
    rw [cycle_of_decode hfetch hdecode, cycleStatus_of_decode hfetch hdecode, hexec, hstatus]
    exact ⟨rfl, rfl⟩

/-- Settles O38: each instruction is one write, of `V[x]`, of `DT` or of `ST`. -/
theorem timerInstructions : Obligations.TimerInstructions :=
  ⟨rowDecodesTo_of_fields (and_F0FF_iff · 0xF 0x07) fun _ => and_iff_left rfl,
    rowDecodesTo_of_fields (and_F0FF_iff · 0xF 0x15) fun _ => and_iff_left rfl,
    rowDecodesTo_of_fields (and_F0FF_iff · 0xF 0x18) fun _ => and_iff_left rfl,
    fun x s => ⟨exec_writesReg rfl,
      ⟨{ s with dt := s.reg x }, rfl, rfl, unchangedBut_delay s _⟩,
      ⟨{ s with st := s.reg x }, rfl, rfl, rfl, unchangedBut_sound s _⟩⟩⟩

/-- Settles O39: each tick is one write of its own counter. -/
theorem ticksCountDown : Obligations.TicksCountDown := fun s =>
  ⟨tickDown_toNat_ite s.dt, unchangedBut_delay s _, tickDown_toNat_ite s.st, unchangedBut_sound s _⟩

/-- Settles O41: the output is a function of `ST`, which only a sound tick moves between steps. -/
theorem soundOutput : Obligations.SoundOutput := by
  refine fun s => ⟨soundActive_iff s, ?_, fun e => ⟨fun he => ?_, Event.apply_pc s e⟩,
    fun x => ⟨{ s with st := s.reg x }, rfl, soundActive_iff _⟩⟩
  · have htick : (Event.apply s .soundTick).st.toNat = s.st.toNat - 1 := tickDown_toNat s.st
    rw [soundActive_iff, htick, Nat.sub_pos_iff_lt]
  · rw [soundActive, Event.apply_st_of_ne s he, soundActive]

end Sys2Proof.Machine
end

section
/-! Reset (70_reset_and_hazards.md section 1): what the register file, memory and the framebuffer read as after reset,
and that a reset asserted on any state leaves the same. -/

namespace Sys2Proof.Machine

/-! ### What reads after reset (70_reset_and_hazards.md R171) -/

/-- The power-on contents, with the font read by index. -/
theorem background_eq_getElem? (font : Font) (a : Nat) :
    background font a = if 0x050 ≤ a ∧ a ≤ 0x09F then font[a - 0x050]?.getD 0 else 0 := by
  rw [background, List.getD_eq_getElem?_getD, Vector.getElem?_toList]
  rfl

@[simp] theorem State.reg_resetWith (p : Params) (r : Reg) : (State.resetWith p).reg r = 0 :=
  Vector.getElem_replicate r.isLt

@[simp] theorem State.byteAt_resetWith (p : Params) (a : Nat) :
    (State.resetWith p).byteAt a = background p.font a := rfl

@[simp] theorem State.fb_resetWith (p : Params) : (State.resetWith p).fb = Framebuffer.blank := rfl

/-! ### Reset asserted on any state (70_reset_and_hazards.md R170) -/

@[simp] theorem reg_assertReset (s : State) (r : Reg) : (assertReset s).reg r = 0 :=
  (State.reg_congr rfl r).trans (State.reg_resetWith s.params r)

@[simp] theorem byteAt_assertReset (s : State) (a : Nat) :
    (assertReset s).byteAt a = background s.params.font a :=
  (State.byteAt_congr rfl rfl a).trans (State.byteAt_resetWith s.params a)

@[simp] theorem framebufferPort_assertReset (s : State) (r : Fin 32) (c : Fin 64) :
    framebufferPort (assertReset s) r c = false := by
  have hfb : (assertReset s).fb = Framebuffer.blank := State.fb_resetWith s.params
  rw [framebufferPort, hfb, Framebuffer.cell_blank]

/-! ### The obligation -/

/-- Settles O48: reset rebuilds the state from its parameters, so no field but the draws and the schedule is read from
the old one. -/
theorem resetDiscardsEverything : Obligations.ResetDiscardsEverything := by
  intro s
  have hmem : ∀ a, (assertReset s).byteAt a =
      if 0x050 ≤ a ∧ a ≤ 0x09F then s.params.font[a - 0x050]?.getD 0 else 0 := fun a =>
    (byteAt_assertReset s a).trans (background_eq_getElem? s.params.font a)
  exact ⟨rfl, reg_assertReset s, rfl, rfl, rfl, rfl, framebufferPort_assertReset s, rfl, hmem, rfl, rfl, rfl, rfl⟩

end Sys2Proof.Machine
end

section
/-! What each guarded instruction answers (60_exceptions.md section 1), as one equation with its check as the test, and
from these which outcomes the execute phase can have at all. -/

namespace Sys2Proof.Machine

/-! ### The guarded instructions -/

/-- A bounds check as the test of its access (20_memory.md R37 to R39). -/
theorem guarded_checkRange_eq (base count : Nat) (go : Unit → Result) :
    guarded (checkRange base count) go =
      if 0 < count ∧ 0xFFF < base + count - 1 then .fault (.addressOutOfRange (max base 0x1000)) else go () := by
  rcases guarded_checkRange_cases base count go with ⟨h, hfits⟩ | ⟨h, hpos, hpast⟩
  · rw [h, if_neg (by omega)]
  · rw [h, if_pos (by omega)]

/-- A bounds check of `k + 1` bytes, whose last byte is at `base + k`. -/
theorem guarded_checkRange_succ_eq (base k : Nat) (go : Unit → Result) :
    guarded (checkRange base (k + 1)) go =
      if 0xFFF < base + k then .fault (.addressOutOfRange (max base 0x1000)) else go () := by
  rw [guarded_checkRange_eq]
  simp only [Nat.succ_pos, true_and, Nat.add_succ_sub_one]

theorem exec_call_eq (nnn : Addr) (s : State) :
    exec (.call nnn) s =
      if s.params.stackDepth = some s.stack.length then .fault (.stackOverflow s.stack.length)
      else .next { s with stack := s.pc :: s.stack, pc := addrWord nnn } := by
  rcases execCall_cases nnn s with ⟨h, hroom⟩ | ⟨h, hfull⟩
  · rw [if_neg hroom]; exact h
  · rw [if_pos hfull]; exact h

theorem exec_ldB_eq (x : Reg) (s : State) :
    exec (.ldB x) s =
      if 0xFFF < s.i.toNat + 2 then .fault (.addressOutOfRange (max s.i.toNat 0x1000))
      else .next (s.storeBytes s.i.toNat (bcdDigits (s.reg x))) :=
  guarded_checkRange_succ_eq s.i.toNat 2 _

theorem exec_storeRegs_eq (x : Reg) (s : State) :
    exec (.storeRegs x) s =
      if 0xFFF < s.i.toNat + x.val then .fault (.addressOutOfRange (max s.i.toNat 0x1000))
      else .next (s.storeBytes s.i.toNat (s.regsThrough x)) :=
  guarded_checkRange_succ_eq s.i.toNat x.val _

theorem exec_loadRegs_eq (x : Reg) (s : State) :
    exec (.loadRegs x) s =
      if 0xFFF < s.i.toNat + x.val then .fault (.addressOutOfRange (max s.i.toNat 0x1000))
      else .next (s.setRegsFrom 0 (s.loadBytes s.i.toNat (x.val + 1))) :=
  guarded_checkRange_succ_eq s.i.toNat x.val _

/-- What a blit of `rows` rows leaves of the framebuffer, and whether it collided. -/
def State.blitRows (s : State) (x0 y0 rows : Nat) : Framebuffer × Bool :=
  blit x0 s.fb y0 (s.loadBytes s.i.toNat rows)

/-- The state a completed draw leaves (43_display.md R121), as `exec_drw_eq` says. -/
def State.afterDraw (s : State) (x0 y0 rows : Nat) : State :=
  { s with fb := (s.blitRows x0 y0 rows).1 }.setFlag (s.blitRows x0 y0 rows).2

theorem exec_drw_eq (x y : Reg) (n : Nibble) (s : State) :
    exec (.drw x y n) s =
      if 0 < drawnRows n (s.reg y) ∧ 0xFFF < s.i.toNat + drawnRows n (s.reg y) - 1 then
        .fault (.addressOutOfRange (max s.i.toNat 0x1000))
      else .next (s.afterDraw (originColumn (s.reg x)) (originRow (s.reg y)) (drawnRows n (s.reg y))) :=
  guarded_checkRange_eq s.i.toNat (drawnRows n (s.reg y)) _

/-! ### What a guarded instruction that completes leaves -/

/-- When an outcome that is a fault or a next state by a test is a given fault. -/
theorem ite_fault_next_eq_fault_iff {p : Prop} [Decidable p] {f g : Fault} {t : State} :
    (if p then .fault g else .next t : Result) = .fault f ↔ p ∧ f = g := by
  split <;> simp_all [eq_comm]

/-- An outcome that is a fault or a next state by a test is a given next state when the test fails. -/
theorem ite_fault_next_eq_next_iff {p : Prop} [Decidable p] {f : Fault} {t u : State} :
    (if p then .fault f else .next u : Result) = .next t ↔ ¬ p ∧ u = t := by
  split <;> simp_all

theorem next_of_exec_call {nnn : Addr} {s t : State} (hexec : exec (.call nnn) s = .next t) :
    s.params.stackDepth ≠ some s.stack.length ∧ { s with stack := s.pc :: s.stack, pc := addrWord nnn } = t := by
  rwa [exec_call_eq, ite_fault_next_eq_next_iff] at hexec

theorem next_of_exec_ldB {x : Reg} {s t : State} (hexec : exec (.ldB x) s = .next t) :
    ¬ 0xFFF < s.i.toNat + 2 ∧ s.storeBytes s.i.toNat (bcdDigits (s.reg x)) = t := by
  rwa [exec_ldB_eq, ite_fault_next_eq_next_iff] at hexec

theorem next_of_exec_storeRegs {x : Reg} {s t : State} (hexec : exec (.storeRegs x) s = .next t) :
    ¬ 0xFFF < s.i.toNat + x.val ∧ s.storeBytes s.i.toNat (s.regsThrough x) = t := by
  rwa [exec_storeRegs_eq, ite_fault_next_eq_next_iff] at hexec

theorem next_of_exec_loadRegs {x : Reg} {s t : State} (hexec : exec (.loadRegs x) s = .next t) :
    ¬ 0xFFF < s.i.toNat + x.val ∧ s.setRegsFrom 0 (s.loadBytes s.i.toNat (x.val + 1)) = t := by
  rwa [exec_loadRegs_eq, ite_fault_next_eq_next_iff] at hexec

theorem next_of_exec_drw {x y : Reg} {n : Nibble} {s t : State} (hexec : exec (.drw x y n) s = .next t) :
    ¬ (0 < drawnRows n (s.reg y) ∧ 0xFFF < s.i.toNat + drawnRows n (s.reg y) - 1) ∧
      s.afterDraw (originColumn (s.reg x)) (originRow (s.reg y)) (drawnRows n (s.reg y)) = t := by
  rwa [exec_drw_eq, ite_fault_next_eq_next_iff] at hexec

/-! ### The key wait -/

/-- `Fx0A` completes, by the two cases of the key latch (44_keypad_timers.md R132). -/
theorem exec_ldVxK_cases (x : Reg) (s : State) :
    (s.key = none ∧ exec (.ldVxK x) s = .next (s.setPc (s.pc - 2))) ∨
    ∃ k, s.key = some k ∧ exec (.ldVxK x) s = .next (s.setReg x (keyByte k)) := by
  cases hkey : s.key with
  | none => exact .inl ⟨rfl, exec_ldVxK_of_none x hkey⟩
  | some k => exact .inr ⟨k, rfl, exec_ldVxK_of_some x hkey⟩

theorem next_of_exec_ldVxK {x : Reg} {s t : State} (hexec : exec (.ldVxK x) s = .next t) :
    (s.key = none ∧ s.setPc (s.pc - 2) = t) ∨ ∃ k, s.key = some k ∧ s.setReg x (keyByte k) = t := by
  rcases exec_ldVxK_cases x s with ⟨hkey, h⟩ | ⟨k, hkey, h⟩
  · exact .inl ⟨hkey, Host.Outcome.next.inj (h.symm.trans hexec)⟩
  · exact .inr ⟨k, hkey, Host.Outcome.next.inj (h.symm.trans hexec)⟩

theorem exec_ldVxK_completes (x : Reg) (s : State) : ∃ t, exec (.ldVxK x) s = .next t := by
  rcases exec_ldVxK_cases x s with ⟨-, h⟩ | ⟨k, -, h⟩
  · exact ⟨_, h⟩
  · exact ⟨_, h⟩

/-! ### Which outcomes there are -/

/-- A check that passes goes on to a next state here, so a refusal cannot come of it. -/
theorem guarded_next_or_fault {α : Type} (check : Except Fault α) (go : α → State) :
    (∃ t, guarded check (fun a => .next (go a)) = .next t) ∨
      ∃ f, guarded check (fun a => .next (go a)) = .fault f := by
  cases check with
  | ok a => exact .inl ⟨go a, rfl⟩
  | error f => exact .inr ⟨f, rfl⟩

/-- Every instruction completes or faults. -/
theorem exec_next_or_fault (i : Instr) (s : State) : (∃ t, exec i s = .next t) ∨ ∃ f, exec i s = .fault f := by
  cases i with
  | call | ldB | storeRegs | loadRegs | drw => exact guarded_next_or_fault _ _
  | ldVxK x => exact .inl (exec_ldVxK_completes x s)
  | _ => exact .inl ⟨_, rfl⟩

/-- Every cycle ends in a next state or a fault. -/
theorem cycle_next_or_fault (s : State) : (∃ t, cycle s = .next t) ∨ ∃ f, cycle s = .fault f := by
  rcases cycle_cases s with ⟨-, h⟩ | ⟨-, w, -, ⟨i, -, h⟩ | ⟨-, h⟩⟩
  · exact .inr ⟨_, h⟩
  · rw [h]; exact exec_next_or_fault i s.advance
  · exact .inl ⟨_, h⟩

/-! ### The obligations -/

/-- Settles O43: the five guarded instructions fault when their test says so, and every other one has a next state. -/
theorem faultsAreTheListed : Obligations.FaultsAreTheListed := by
  intro i s f
  cases i with
  | call nnn => rw [exec_call_eq, ite_fault_next_eq_fault_iff]
  | ldB x =>
    rw [exec_ldB_eq, ite_fault_next_eq_fault_iff]
    exact and_congr_left' (by omega)
  | storeRegs x => rw [exec_storeRegs_eq, ite_fault_next_eq_fault_iff]
  | loadRegs x => rw [exec_loadRegs_eq, ite_fault_next_eq_fault_iff]
  | drw x y n =>
    have hrows : 0 < drawnRows n (s.reg y) ↔ 0 < n.toNat := by
      have := Nat.mod_lt (s.reg y).toNat (show 0 < 32 by decide)
      simp only [drawnRows, originRow, Config.fbH]
      omega
    rw [exec_drw_eq, ite_fault_next_eq_fault_iff, hrows, and_assoc]
    rfl
  | ldVxK x =>
    obtain ⟨t, hexec⟩ := exec_ldVxK_completes x s
    exact iff_of_false (fun hfault => nomatch hexec.symm.trans hfault) id
  | _ => exact iff_of_false nofun id

/-- Settles O44: an outcome that is a next state or a fault is no refusal. -/
theorem nothingIsRefused : Obligations.NothingIsRefused := by
  have hnot : ∀ {o : Result} (r : Refusal), ((∃ t, o = .next t) ∨ ∃ f, o = .fault f) → o ≠ .refused r := by
    rintro o r (⟨t, rfl⟩ | ⟨f, rfl⟩) <;> exact nofun
  exact ⟨fun i s r => hnot r (exec_next_or_fault i s), fun s r => hnot r (cycle_next_or_fault s.beginStep)⟩

end Sys2Proof.Machine
end

section
/-! The machine's invariant (10_state.md sections 4 and 5): it holds at reset, every step keeps it, and so does whatever
the host does between steps. -/

namespace Sys2Proof.Machine

/-! ### The invariant over the state's operations -/

/-- The invariant reads memory, the parameters, the stack and `pc` only. -/
theorem State.Inv.congr {s t : State} (hinv : s.Inv) (hmem : t.mem = s.mem) (hparams : t.params = s.params)
    (hstack : t.stack = s.stack) (hpc : t.pc = s.pc) : t.Inv where
  memory := by rw [hparams, hmem]; exact hinv.memory
  depth := by rw [hparams, hstack]; exact hinv.depth
  returns := by rw [hstack]; exact hinv.returns
  pcBound := by rw [hpc]; exact hinv.pcBound

theorem State.Inv.setPc {s : State} {w : Word} (hinv : s.Inv) (hw : w.toNat ≤ 0x10FE) : (s.setPc w).Inv :=
  { hinv with pcBound := hw }

/-- `pc + 2` without the wrap, for a `pc` that is not at the end of the word's range. -/
theorem toNat_word_add_two {w : Word} (hw : w.toNat ≤ 0x10FE) : (w + 2).toNat = w.toNat + 2 := by
  have hadd : (w + 2).toNat = (w.toNat + 2) % 65536 := BitVec.toNat_add w 2
  omega

/-- A skip goes 2 further, and `pc` in the execute phase is at most `0x1000`. -/
theorem State.Inv.skipIf {s : State} (hinv : s.Inv) (hpc : s.pc.toNat ≤ 0x1000) (c : Bool) : (s.skipIf c).Inv := by
  cases c with
  | false => exact hinv
  | true => exact hinv.setPc (by rw [toNat_word_add_two hinv.pcBound]; omega)

/-- A return address popped is at most `0x1000` (40_flow.md R72, R73). -/
theorem State.Inv.popPc {s : State} (hinv : s.Inv) : s.popPc.Inv := by
  unfold State.popPc
  split
  next => exact hinv
  next top rest hstack =>
    have htop : top.toNat ≤ 0x1000 := hinv.returns top (hstack ▸ List.mem_cons_self)
    have hrest : ∀ w ∈ rest, w ∈ s.stack := fun w hw => hstack ▸ List.mem_cons_of_mem top hw
    have hlength : rest.length ≤ s.stack.length := by rw [hstack]; exact Nat.le_succ _
    exact { memory := hinv.memory
            depth := fun d hd => hlength.trans (hinv.depth d hd)
            returns := fun w hw => hinv.returns w (hrest w hw)
            pcBound := htop.trans (by decide) }

/-- A call that does not overflow has a place left on a finite stack, since the stack is not overfull. -/
theorem State.Inv.call {s : State} (hinv : s.Inv) (hpc : s.pc.toNat ≤ 0x1000)
    (hroom : s.params.stackDepth ≠ some s.stack.length) (nnn : Addr) :
    State.Inv { s with stack := s.pc :: s.stack, pc := addrWord nnn } where
  memory := hinv.memory
  depth d hd := Nat.lt_of_le_of_ne (hinv.depth d hd) fun hlength => hroom (hlength ▸ hd)
  returns := List.forall_mem_cons.mpr ⟨hpc, hinv.returns⟩
  pcBound := by
    have := nnn.isLt
    rw [addrWord_toNat]
    omega

/-- Bytes stored below `MEM_SIZE` keep memory in canonical form. -/
theorem State.Inv.storeBytes {s : State} (hinv : s.Inv) {a : Nat} {bytes : List Byte}
    (hfits : a + bytes.length ≤ 0x1000) : (s.storeBytes a bytes).Inv where
  memory := by rw [State.storeBytes_params s a bytes]; exact State.wf_storeBytes hinv.memory hfits
  depth := by rw [State.storeBytes_params, State.storeBytes_stack]; exact hinv.depth
  returns := by rw [State.storeBytes_stack]; exact hinv.returns
  pcBound := by rw [State.storeBytes_pc]; exact hinv.pcBound

/-- The sum of a computed jump without the wrap (40_flow.md R74). -/
theorem jumpSum_toNat (nnn : Addr) (v0 : Byte) : (jumpSum nnn v0).toNat = nnn.toNat + v0.toNat := by
  have hnnn := nnn.isLt
  have hv0 := v0.isLt
  exact Nat.mod_eq_of_lt (by omega)

/-! ### The invariant over the execute phase, the step and the host's moves -/

/-- The execute phase keeps the invariant, on every state that the fetch phase can leave: `pc` is 2 to `0x1000`. -/
theorem exec_keeps_inv {i : Instr} {s t : State} (hinv : s.Inv) (hlow : 2 ≤ s.pc.toNat) (hhigh : s.pc.toNat ≤ 0x1000)
    (hexec : exec i s = .next t) : t.Inv := by
  cases i with
  | jp nnn =>
    cases hexec
    have := nnn.isLt
    exact hinv.setPc (by rw [addrWord_toNat]; omega)
  | jpV0 nnn =>
    cases hexec
    have hnnn := nnn.isLt
    have hv0 := (s.reg 0).isLt
    exact hinv.setPc (by rw [jumpSum_toNat]; omega)
  | call nnn =>
    obtain ⟨hroom, rfl⟩ := next_of_exec_call hexec
    exact hinv.call hhigh hroom nnn
  | ret => cases hexec; exact hinv.popPc
  | seImm | sneImm | seReg | sneReg | skp | sknp => cases hexec; exact hinv.skipIf hhigh _
  | ldVxK x =>
    obtain ⟨-, rfl⟩ | ⟨k, -, rfl⟩ := next_of_exec_ldVxK hexec
    · have hback : (s.pc - 2).toNat = s.pc.toNat - 2 := BitVec.toNat_sub_of_le hlow
      exact hinv.setPc (by omega)
    · exact hinv.congr rfl rfl rfl rfl
  | ldB x =>
    obtain ⟨hfits, rfl⟩ := next_of_exec_ldB hexec
    have hlength : (bcdDigits (s.reg x)).length = 3 := rfl
    exact hinv.storeBytes (by omega)
  | storeRegs x =>
    obtain ⟨hfits, rfl⟩ := next_of_exec_storeRegs hexec
    have hlength := s.length_regsThrough x
    exact hinv.storeBytes (by omega)
  | loadRegs x =>
    obtain ⟨-, rfl⟩ := next_of_exec_loadRegs hexec
    exact hinv.congr (s.setRegsFrom_mem ..) (s.setRegsFrom_params ..) (s.setRegsFrom_stack ..) (s.setRegsFrom_pc ..)
  | drw x y n =>
    obtain ⟨-, rfl⟩ := next_of_exec_drw hexec
    exact hinv.congr rfl rfl rfl rfl
  | _ => cases hexec; exact hinv.congr rfl rfl rfl rfl

theorem cycle_keeps_inv {s t : State} (hinv : s.Inv) (hcycle : cycle s = .next t) : t.Inv := by
  rcases cycle_cases s with ⟨-, hfault⟩ | ⟨hpc, w, -, hrun⟩
  · cases hfault.symm.trans hcycle
  · have hadvance : s.advance.pc.toNat = s.pc.toNat + 2 := toNat_word_add_two hinv.pcBound
    have hinv' : s.advance.Inv := hinv.setPc (by rw [State.advance_pc] at hadvance; omega)
    rcases hrun with ⟨i, -, hexec⟩ | ⟨-, hnop⟩
    · exact exec_keeps_inv hinv' (by omega) (by omega) (hexec.symm.trans hcycle)
    · cases hnop.symm.trans hcycle
      exact hinv'

theorem deliver_keeps_inv {s : State} (hinv : s.Inv) (events : List Event) : (deliver s events).Inv :=
  hinv.congr (deliver_mem s events) (deliver_params s events) (deliver_stack s events) (deliver_pc s events)

theorem resetWith_inv (p : Params) (hpc : p.resetPc.toNat ≤ 0x10FE) : (State.resetWith p).Inv where
  memory := State.wf_resetWith p
  depth _ _ := Nat.zero_le _
  returns := nofun
  pcBound := hpc

/-- What a load port that answers a next state was given, and what it leaves (70_reset_and_hazards.md R173 to R175). -/
theorem loadPort_eq_next {s t : State} {image : List Byte} (hload : loadPort image s = .next t) :
    s.loadable = true ∧ image.length ≤ Config.progMax ∧ t = s.withImage image := by
  unfold loadPort at hload
  split_ifs at hload with hclosed hlong
  · cases hload
  · cases hload
    exact ⟨by simpa using hclosed, Nat.not_lt.mp hlong, rfl⟩

/-! ### The obligations -/

/-- Settles O57: the events before a step touch nothing the invariant reads, and the cycle after them keeps it. -/
theorem stepKeepsInvariant : Obligations.StepKeepsInvariant := by
  intro s t hinv hstep
  have hbegin : s.beginStep.Inv :=
    hinv.congr s.beginStep_mem s.beginStep_params s.beginStep_stack s.beginStep_pc
  exact cycle_keeps_inv hbegin hstep

/-- Settles O58: events and reset touch nothing the invariant reads, and an accepted image ends below `MEM_SIZE`. -/
theorem hostMovesKeepInvariant : Obligations.HostMovesKeepInvariant := by
  intro s t events image hinv
  refine ⟨deliver_keeps_inv hinv events, fun hload => ?_, fun hpc => ?_⟩
  · obtain ⟨-, hfits, rfl⟩ := loadPort_eq_next hload
    have hbelow : Config.progBase + image.length ≤ 0x1000 := Nat.add_le_add_left hfits Config.progBase
    exact (hinv.storeBytes hbelow).congr rfl rfl rfl rfl
  · exact (resetWith_inv s.params hpc).congr rfl rfl rfl rfl

/-- Settles O56: reset memory lists no cell and the stack is empty. -/
theorem resetMeetsInvariant : Obligations.ResetMeetsInvariant :=
  ⟨resetWith_inv defaultParams (by decide), resetWith_inv⟩

end Sys2Proof.Machine
end

section
/-! The decoder against the opcode table (30_encoding.md R55) and against the list of unrecognised words (R58). -/

namespace Sys2Proof

/-! ### The table's rows and the instructions of a word's fields -/

/-- One instruction per row of the opcode table, in its order, each with its operands from the word's fields (R51). -/
def rowInstrs (w : Word) : List Instr :=
  [ .cls, .ret, .jp (nnnField w), .call (nnnField w), .seImm (xField w) (nnField w), .sneImm (xField w) (nnField w),
    .seReg (xField w) (yField w), .ldImm (xField w) (nnField w), .addImm (xField w) (nnField w),
    .ldReg (xField w) (yField w), .orReg (xField w) (yField w), .andReg (xField w) (yField w),
    .xorReg (xField w) (yField w), .addReg (xField w) (yField w), .subReg (xField w) (yField w),
    .shr (xField w) (yField w), .subn (xField w) (yField w), .shl (xField w) (yField w),
    .sneReg (xField w) (yField w), .ldI (nnnField w), .jpV0 (nnnField w), .rnd (xField w) (nnField w),
    .drw (xField w) (yField w) (nField w), .skp (xField w), .sknp (xField w),
    .ldVxDT (xField w), .ldVxK (xField w), .ldDTVx (xField w), .ldSTVx (xField w), .addI (xField w), .ldF (xField w),
    .ldB (xField w), .storeRegs (xField w), .loadRegs (xField w) ]

/-- The opcode table is the rows of these instructions. -/
theorem opcodeRows_eq_map_row (w : Word) : opcodeRows = (rowInstrs w).map Instr.row := rfl

theorem OpcodeRow.admits_iff (row : OpcodeRow) (w : Word) : row.admits w = true ↔ w &&& row.mask = row.pattern :=
  beq_iff_eq

/-- A row that admits a word asks for the same fields as the row's instruction (R54, R55). -/
theorem isOf_of_admits {w : Word} : ∀ i ∈ rowInstrs w, i.row.admits w = true → i.IsOf w := by
  simp only [rowInstrs, List.forall_mem_cons, OpcodeRow.admits_iff]
  have hword : ∀ p, w &&& 0xFFFF = p → w = p := fun p => (and_FFFF_iff w p).mp
  have hop : ∀ k, w &&& 0xF000 = formatXY k 0 0 0 → opField w = k := fun k => (and_F000_iff w k).mp
  have hopN : ∀ k j, w &&& 0xF00F = formatXY k 0 0 j → opField w = k ∧ nField w = j :=
    fun k j => (and_F00F_iff w k j).mp
  have hopNN : ∀ k nn, w &&& 0xF0FF = formatXI k 0 nn → opField w = k ∧ nnField w = nn :=
    fun k nn => (and_F0FF_iff w k nn).mp
  have hA : ∀ k, w &&& 0xF000 = formatXY k 0 0 0 → opField w = k ∧ nnnField w = nnnField w := fun k h => ⟨hop k h, rfl⟩
  have hXI : ∀ k, w &&& 0xF000 = formatXY k 0 0 0 → opField w = k ∧ xField w = xField w ∧ nnField w = nnField w :=
    fun k h => ⟨hop k h, rfl, rfl⟩
  have hXY : ∀ k j, w &&& 0xF00F = formatXY k 0 0 j →
      (opField w = k ∧ nField w = j) ∧ xField w = xField w ∧ yField w = yField w := fun k j h => ⟨hopN k j h, rfl, rfl⟩
  have hXS : ∀ k nn, w &&& 0xF0FF = formatXI k 0 nn → (opField w = k ∧ nnField w = nn) ∧ xField w = xField w :=
    fun k nn h => ⟨hopNN k nn h, rfl⟩
  exact ⟨hword _, hword _, hA 0x1, hA 0x2, hXI 0x3, hXI 0x4, hXY 0x5 0x0, hXI 0x6, hXI 0x7,
    hXY 0x8 0x0, hXY 0x8 0x1, hXY 0x8 0x2, hXY 0x8 0x3, hXY 0x8 0x4, hXY 0x8 0x5, hXY 0x8 0x6, hXY 0x8 0x7, hXY 0x8 0xE,
    hXY 0x9 0x0, hA 0xA, hA 0xB, hXI 0xC, fun h => ⟨hop 0xD h, rfl, rfl, rfl⟩, hXS 0xE 0x9E, hXS 0xE 0xA1,
    hXS 0xF 0x07, hXS 0xF 0x0A, hXS 0xF 0x15, hXS 0xF 0x18, hXS 0xF 0x1E, hXS 0xF 0x29, hXS 0xF 0x33, hXS 0xF 0x55,
    hXS 0xF 0x65, nofun⟩

/-- A word that a row of the table admits decodes to an instruction of that row. -/
theorem exists_decode_of_admits {w : Word} {row : OpcodeRow} (hrow : row ∈ opcodeRows) (hadmits : row.admits w = true) :
    ∃ i, decode w = .ok i ∧ i.row = row := by
  rw [opcodeRows_eq_map_row w, List.mem_map] at hrow
  obtain ⟨i, hi, rfl⟩ := hrow
  exact ⟨i, decode_of_isOf (isOf_of_admits i hi hadmits), rfl⟩

/-- The encoding of every instruction is a word of its row (R55). -/
theorem row_admits_encode (i : Instr) : i.row.admits (encode i) = true := by
  open Laws.EncodingRow in
  cases i with
  | cls | ret => rfl
  | jp | call | ldI | jpV0 => exact admits_formatA ..
  | seImm | sneImm | ldImm | addImm | rnd => exact admits_formatXI ..
  | drw => exact admits_formatXYN ..
  | skp | sknp | ldVxDT | ldVxK | ldDTVx | ldSTVx | addI | ldF | ldB | storeRegs | loadRegs => exact admits_formatXS ..
  | seReg | ldReg | orReg | andReg | xorReg | addReg | subReg | shr | subn | shl | sneReg => exact admits_formatXY ..

/-- A word that decodes is admitted by its instruction's row, of which it is the encoding. -/
theorem row_admits_of_decode {w : Word} {i : Instr} (hdecode : decode w = .ok i) : i.row.admits w = true := by
  rw [← (decode_ok_iff_encode_eq w i).mp hdecode]
  exact row_admits_encode i

theorem opcodeRows_nodup : opcodeRows.Nodup := by decide

/-- Settles O4: a word that two rows admit would decode to an instruction of each. -/
theorem decodeFollowsOpcodeTable : Obligations.DecodeFollowsOpcodeTable := by
  refine ⟨fun w => ⟨fun hword => ?_, fun ⟨i, hdecode⟩ => ?_⟩,
    fun w i hdecode => ⟨Laws.EncodingRow.row_mem i, row_admits_of_decode hdecode⟩, ?_⟩
  · obtain ⟨row, hrow, hadmits⟩ := List.any_eq_true.mp hword
    obtain ⟨i, hdecode, -⟩ := exists_decode_of_admits hrow hadmits
    exact ⟨i, hdecode⟩
  · exact List.any_eq_true.mpr ⟨i.row, Laws.EncodingRow.row_mem i, row_admits_of_decode hdecode⟩
  · refine opcodeRows_nodup.imp_of_mem fun {p q} hp hq hne w ⟨hpw, hqw⟩ => hne ?_
    obtain ⟨i, hi, rfl⟩ := exists_decode_of_admits hp hpw
    obtain ⟨j, hj, rfl⟩ := exists_decode_of_admits hq hqw
    cases hi.symm.trans hj
    rfl

/-! ### The unrecognised words, category by category (30_encoding.md R58) -/

theorem decode0_error_iff (w : Word) :
    decode0 w = .error (.unrecognized w) ↔ nnnField w ≠ 0x0E0 ∧ nnnField w ≠ 0x0EE := by
  unfold decode0
  split <;> simp_all

theorem decode8_error_iff (w : Word) :
    decode8 w = .error (.unrecognized w) ↔ nField w ∈ [0x8, 0x9, 0xA, 0xB, 0xC, 0xD, 0xF] := by
  unfold decode8
  split
  case h_10 =>
    refine iff_of_true rfl ?_
    generalize nField w = n at *
    revert n
    decide
  all_goals
    rename_i hn
    exact iff_of_false nofun (by rw [hn]; decide)

theorem decodeE_error_iff (w : Word) :
    decodeE w = .error (.unrecognized w) ↔ nnField w ≠ 0x9E ∧ nnField w ≠ 0xA1 := by
  unfold decodeE
  split <;> simp_all

theorem decodeF_error_iff (w : Word) :
    decodeF w = .error (.unrecognized w) ↔ nnField w ∉ [0x07, 0x0A, 0x15, 0x18, 0x1E, 0x29, 0x33, 0x55, 0x65] := by
  unfold decodeF
  split <;> simp_all

/-- The words that do not decode are those of R58's list. -/
theorem decode_error_iff (w : Word) :
    decode w = .error (.unrecognized w) ↔
      (opField w = 0x0 ∧ nnnField w ≠ 0x0E0 ∧ nnnField w ≠ 0x0EE) ∨
      ((opField w = 0x5 ∨ opField w = 0x9) ∧ nField w ≠ 0x0) ∨
      (opField w = 0x8 ∧ nField w ∈ [0x8, 0x9, 0xA, 0xB, 0xC, 0xD, 0xF]) ∨
      (opField w = 0xE ∧ nnField w ≠ 0x9E ∧ nnField w ≠ 0xA1) ∨
      (opField w = 0xF ∧ nnField w ∉ [0x07, 0x0A, 0x15, 0x18, 0x1E, 0x29, 0x33, 0x55, 0x65]) := by
  unfold decode
  split
  case h_1 hop => rw [decode0_error_iff]; simp [hop]
  case h_6 hop | h_10 hop => split <;> simp_all
  case h_9 hop => rw [decode8_error_iff]; simp [hop]
  case h_15 hop => rw [decodeE_error_iff]; simp [hop]
  case h_16 =>
    have hop : opField w = 0xF := by
      generalize opField w = op at *
      revert op
      decide
    rw [decodeF_error_iff]
    simp [hop]
  all_goals
    rename_i hop
    simp [hop]

/-- Settles O5: a word of R58's list does not decode, and the cycle on it is the advance alone (40_flow.md R79). -/
theorem unrecognizedWordsAreNops : Obligations.UnrecognizedWordsAreNops :=
  ⟨decode_error_iff, fun _ _ hfetch hdecode => Machine.cycle_of_unrecognized hfetch hdecode⟩

end Sys2Proof
end

section
/-! Frames (10_state.md section 1): what one change of the state and then another leave unchanged, and the frames of the
operations that no section above has stated one for. -/

namespace Sys2Proof.Machine

/-! ### Frames of two changes, and wider frames -/

/-- What neither of two changes touches, the two together leave unchanged. -/
theorem UnchangedBut.trans {regs regs' : List Reg} {parts parts' : List Part} {s t u : State}
    (hst : UnchangedBut regs parts s t) (htu : UnchangedBut regs' parts' t u) :
    UnchangedBut (regs ++ regs') (parts ++ parts') s u := by
  obtain ⟨hreg, hi, hpc, hstack, hdt, hst, hfb, hkey, hmem, hdraws, hparams, hschedule, hloadable⟩ := hst
  obtain ⟨hreg', hi', hpc', hstack', hdt', hst', hfb', hkey', hmem', hdraws', hparams', hschedule', hloadable'⟩ := htu
  simp only [UnchangedBut, List.mem_append, not_or]
  exact ⟨fun r h => (hreg' r h.2).trans (hreg r h.1), fun h => (hi' h.2).trans (hi h.1),
    fun h => (hpc' h.2).trans (hpc h.1), fun h => (hstack' h.2).trans (hstack h.1),
    fun h => (hdt' h.2).trans (hdt h.1), fun h => (hst' h.2).trans (hst h.1), fun h => (hfb' h.2).trans (hfb h.1),
    fun h => (hkey' h.2).trans (hkey h.1), fun h a => (hmem' h.2 a).trans (hmem h.1 a),
    fun h => (hdraws' h.2).trans (hdraws h.1), hparams'.trans hparams, hschedule'.trans hschedule,
    hloadable'.trans hloadable⟩

/-- A frame that names more parts says less. -/
theorem UnchangedBut.mono {regs regs' : List Reg} {parts parts' : List Part} {s t : State}
    (hframe : UnchangedBut regs parts s t) (hregs : regs ⊆ regs') (hparts : parts ⊆ parts') :
    UnchangedBut regs' parts' s t := by
  obtain ⟨hreg, hi, hpc, hstack, hdt, hst, hfb, hkey, hmem, hdraws, hrest⟩ := hframe
  exact ⟨fun r h => hreg r (mt (@hregs r) h), fun h => hi (mt (@hparts _) h), fun h => hpc (mt (@hparts _) h),
    fun h => hstack (mt (@hparts _) h), fun h => hdt (mt (@hparts _) h), fun h => hst (mt (@hparts _) h),
    fun h => hfb (mt (@hparts _) h), fun h => hkey (mt (@hparts _) h), fun h => hmem (mt (@hparts _) h),
    fun h => hdraws (mt (@hparts _) h), hrest⟩

/-! ### Frames of single operations -/

theorem unchangedBut_setFlag (s : State) (c : Bool) : UnchangedBut [0xF] [] s (s.setFlag c) :=
  unchangedBut_setReg s flagReg _

theorem unchangedBut_drawByte (s : State) : UnchangedBut [] [.draws] s s.drawByte.2 := by
  simp [UnchangedBut, State.reg_congr s.drawByte_v, State.byteAt_congr s.drawByte_mem s.drawByte_params]

theorem unchangedBut_writeKey (s : State) (k : Option Key) : UnchangedBut [] [.key] s (s.writeKey k) := by
  simp [UnchangedBut, State.reg_congr (s.writeKey_v k), State.byteAt_congr (s.writeKey_mem k) (s.writeKey_params k)]

theorem unchangedBut_call (s : State) (stack : List Word) (pc : Word) :
    UnchangedBut [] [.pc, .stack] s { s with stack := stack, pc := pc } := by
  have hreg : ∀ r, State.reg { s with stack := stack, pc := pc } r = s.reg r := State.reg_congr rfl
  have hmem : ∀ a, State.byteAt { s with stack := stack, pc := pc } a = s.byteAt a := State.byteAt_congr rfl rfl
  simp [UnchangedBut, hreg, hmem]

theorem unchangedBut_storeBytes (s : State) (a : Nat) (bytes : List Byte) :
    UnchangedBut [] [.memory] s (s.storeBytes a bytes) := by
  simp [UnchangedBut, State.reg_congr (s.storeBytes_v a bytes)]

/-- A store leaves every byte outside its range as it was. -/
theorem memoryKeptOutside_storeBytes (s : State) (a : Nat) (bytes : List Byte) :
    MemoryKeptOutside a bytes.length s (s.storeBytes a bytes) := fun c hc => by
  rw [State.byteAt_storeBytes, if_neg (by omega)]

theorem unchangedBut_setRegsFrom_loadBytes (s : State) (a : Nat) (x : Reg) :
    UnchangedBut ((List.finRange 16).filter (fun k => decide (k ≤ x))) [] s
      (s.setRegsFrom 0 (s.loadBytes a (x.val + 1))) := by
  have hreg : ∀ r : Reg, x < r → (s.setRegsFrom 0 (s.loadBytes a (x.val + 1))).reg r = s.reg r := fun r hr => by
    rw [State.reg_setRegsFrom, State.length_loadBytes, if_neg (by rw [Fin.lt_def] at hr; omega)]
  simpa [UnchangedBut, State.byteAt_congr (s.setRegsFrom_mem _ _) (s.setRegsFrom_params _ _)] using hreg

theorem unchangedBut_afterDraw (s : State) (x0 y0 rows : Nat) :
    UnchangedBut [0xF] [.display] s (s.afterDraw x0 y0 rows) :=
  (unchangedBut_display s _).trans (unchangedBut_setFlag _ _)

theorem unchangedBut_deliver (s : State) (events : List Event) :
    UnchangedBut [] [.delay, .sound, .key] s (deliver s events) := by
  simp [UnchangedBut, State.reg_congr (deliver_v s events),
    State.byteAt_congr (deliver_mem s events) (deliver_params s events)]

/-! ### Obligations about events -/

/-- An event leaves each timer as it is or takes one off it. -/
theorem Event.apply_timers_le (s : State) (e : Event) :
    (Event.apply s e).dt.toNat ≤ s.dt.toNat ∧ (Event.apply s e).st.toNat ≤ s.st.toNat := by
  have hdt := tickDown_toNat s.dt
  have hst := tickDown_toNat s.st
  cases e with
  | delayTick => exact ⟨by rw [Event.apply, State.delayTick_dt]; omega, le_rfl⟩
  | soundTick => exact ⟨le_rfl, by rw [Event.apply, State.soundTick_st]; omega⟩
  | keyPort k => exact ⟨le_rfl, le_rfl⟩

theorem deliver_timers_le (s : State) (events : List Event) :
    (deliver s events).dt.toNat ≤ s.dt.toNat ∧ (deliver s events).st.toNat ≤ s.st.toNat := by
  induction events generalizing s with
  | nil => exact ⟨le_rfl, le_rfl⟩
  | cons e rest ih =>
    obtain ⟨hdt, hst⟩ := ih (Event.apply s e)
    obtain ⟨hdt', hst'⟩ := Event.apply_timers_le s e
    exact ⟨hdt.trans hdt', hst.trans hst'⟩

/-- Settles O9, by induction on the events for the timers. -/
theorem betweenStepsOnlyTimersAndKey : Obligations.BetweenStepsOnlyTimersAndKey := fun s events =>
  ⟨unchangedBut_deliver s events, deliver_timers_le s events⟩

/-- Settles O42: the key port is one write of the latch, and a second write hides the first. -/
theorem keyPortWritesLatch : Obligations.KeyPortWritesLatch := fun s _ k => ⟨rfl, unchangedBut_writeKey s k, rfl⟩

/-- Settles O10: the step takes the head of the schedule and delivers it. -/
theorem everyScheduleReachesTheStep : Obligations.EveryScheduleReachesTheStep := fun s now later =>
  (step_eq { s with schedule := now :: later }).trans (congrArg cycle (State.beginStep_eq _))

end Sys2Proof.Machine
end

section
/-! Calls, computed jumps, key skips, OR, random bytes and the index register: what each of these instructions does
(40_flow.md, 41_alu.md, 42_index_memory.md, 44_keypad_timers.md). -/

namespace Sys2Proof.Machine

/-- Settles O12, by the test of the call's equation. -/
theorem callPushesReturnAddress : Obligations.CallPushesReturnAddress := by
  refine ⟨rowDecodesTo_of_fields (and_F000_iff · 0x2) fun _ => and_iff_left rfl, fun nnn s => ?_⟩
  rw [exec_call_eq]
  split
  next => rfl
  next => exact ⟨_, rfl, rfl, addrWord_toNat nnn, unchangedBut_call s _ _⟩

/-- Settles O14: the return pops the address and the stack that the call pushed onto. -/
theorem returnUndoesCall : Obligations.ReturnUndoesCall := fun nnn s hroom =>
  ⟨{ s with stack := s.pc :: s.stack, pc := addrWord nnn }, by rw [exec_call_eq, if_neg hroom], rfl⟩

/-- Settles O15: the largest sum, `0xFFF + 0xFF`, fits in `pc`. -/
theorem computedJumpAddsV0 : Obligations.ComputedJumpAddsV0 :=
  ⟨rowDecodesTo_of_fields (and_F000_iff · 0xB) fun _ => and_iff_left rfl,
    fun nnn s => ⟨s.setPc (jumpSum nnn (s.reg 0)), rfl, jumpSum_toNat nnn (s.reg 0), unchangedBut_setPc s _⟩⟩

/-- Settles O20: the instruction writes one register and no flag. -/
theorem orLeavesFlag : Obligations.OrLeavesFlag :=
  ⟨rowDecodesTo_of_fields (and_F00F_iff · 0x8 0x1) fun _ => and_iff_left ⟨rfl, rfl⟩, fun _ _ _ => exec_writesReg rfl⟩

/-- Settles O24: a draw, then a write of one register. -/
theorem randomIsMaskedDraw : Obligations.RandomIsMaskedDraw :=
  ⟨rowDecodesTo_of_fields (and_F000_iff · 0xC) fun _ => and_iff_left ⟨rfl, rfl⟩, fun x _ s =>
    ⟨_, rfl, State.reg_setReg_self _ x _, rfl, (unchangedBut_drawByte s).trans (unchangedBut_setReg _ x _)⟩⟩

theorem indexFlag_iff (i : Word) (vx : Byte) : indexFlag i vx = true ↔ 0xFFF < i.toNat + vx.toNat := decide_eq_true_iff

/-- Settles O26: a write of `I`, then one of the flag, both from the old `I`. -/
theorem addToIndex : Obligations.AddToIndex := by
  refine ⟨rowDecodesTo_of_fields (and_F0FF_iff · 0xF 0x1E) fun _ => and_iff_left rfl, fun x s =>
    ⟨_, rfl, BitVec.toNat_ofNat .., ?_, (unchangedBut_setIndex s _).trans (unchangedBut_setFlag _ _)⟩⟩
  simp only [State.reg_setFlag, if_pos, indexFlag_iff]

/-- The glyph address without the wrap: it is at most `0x050 + 5 * 0xFF` (42_index_memory.md R112). -/
theorem glyphAddr_toNat (stride : FontStride) (vx : Byte) :
    (glyphAddr stride vx).toNat = 0x050 + strideBytes stride * vx.toNat := by
  have hvx := vx.isLt
  refine Nat.mod_eq_of_lt ?_
  cases stride <;> simp only [strideBytes, Config.fontBase] <;> omega

/-- Settles O27, by the two values of the stride. -/
theorem loadGlyphAddress : Obligations.LoadGlyphAddress := by
  refine ⟨rowDecodesTo_of_fields (and_F0FF_iff · 0xF 0x29) fun _ => and_iff_left rfl, fun x s =>
    ⟨s.setIndex (glyphAddr s.params.fontStride (s.reg x)), rfl, ?_, unchangedBut_setIndex s _⟩⟩
  rw [State.setIndex_i, glyphAddr_toNat]
  cases s.params.fontStride with
  | five => rfl
  | one => rw [strideBytes, Nat.one_mul]

/-- Settles O28: the digit's glyph lies within the 80 font bytes, which reset puts from `0x050` on. -/
theorem glyphOfDigitAfterReset : Obligations.GlyphOfDigitAfterReset := by
  intro p x d k hstride hd hk
  let s := (State.resetWith p).setReg x (BitVec.ofNat 8 d)
  have hdigit : (s.reg x).toNat = d := by
    rw [State.reg_setReg_self]
    exact Nat.mod_eq_of_lt (by omega)
  have hindex : (glyphAddr p.fontStride (s.reg x)).toNat = 0x050 + 5 * d := by
    rw [glyphAddr_toNat, hstride, hdigit, strideBytes]
  refine ⟨s.setIndex (glyphAddr p.fontStride (s.reg x)), rfl, hindex, ?_⟩
  have hbyte : ∀ a, (s.setIndex (glyphAddr p.fontStride (s.reg x))).byteAt a = background p.font a := fun _ => rfl
  rw [hbyte, State.setIndex_i, hindex, background_eq_getElem?, if_pos (by omega),
    show 0x050 + 5 * d + k - 0x050 = 5 * d + k by omega]

/-- The key test as the obligations write it (44_keypad_timers.md R133). -/
theorem keyIs_iff (key : Option Key) (vx : Byte) : keyIs key vx = true ↔ key.map Fin.val = some vx.toNat := by
  cases key <;> simp [keyIs]

/-- Settles O36: both are skips, on the key test and on its negation. -/
theorem keySkips : Obligations.KeySkips := by
  refine ⟨rowDecodesTo_of_fields (and_F0FF_iff · 0xE 0x9E) fun _ => and_iff_left rfl,
    rowDecodesTo_of_fields (and_F0FF_iff · 0xE 0xA1) fun _ => and_iff_left rfl,
    fun x s => ⟨exec_skip rfl (keyIs_iff ..), ?_⟩⟩
  have hnot : (!keyIs s.key (s.reg x)) = true ↔ ¬ s.key.map Fin.val = some (s.reg x).toNat := by
    rw [← keyIs_iff, Bool.not_eq_true, Bool.not_eq_true']
  simpa only [ite_not] using exec_skip (i := .sknp x) rfl hnot

end Sys2Proof.Machine
end

section
/-! Loads and stores through `I` (42_index_memory.md section 3), and that a fetch sees what was stored (20_memory.md
R42). -/

namespace Sys2Proof.Machine

/-- The bytes that `Fx33` stores, as numbers. -/
theorem bcdDigits_toNat (vx : Byte) :
    ((bcdDigits vx).getD 0 0).toNat = vx.toNat / 100 ∧ ((bcdDigits vx).getD 1 0).toNat = vx.toNat / 10 % 10 ∧
      ((bcdDigits vx).getD 2 0).toNat = vx.toNat % 10 := by
  have := vx.isLt
  simp only [bcdDigits, List.getD_cons_zero, List.getD_cons_succ, BitVec.toNat_ofNat]
  omega

/-- The `k`-th byte of a store, at its place. -/
theorem State.byteAt_storeBytes_add (s : State) (a : Nat) {bytes : List Byte} {k : Nat} (hk : k < bytes.length) :
    (s.storeBytes a bytes).byteAt (a + k) = bytes.getD k 0 := by
  rw [State.byteAt_storeBytes, if_pos (by omega), Nat.add_sub_cancel_left]

/-- Settles O29, by the test of the instruction's equation. -/
theorem storeDecimalDigits : Obligations.StoreDecimalDigits := by
  refine ⟨rowDecodesTo_of_fields (and_F0FF_iff · 0xF 0x33) fun _ => and_iff_left rfl, fun x s => ?_⟩
  rw [exec_ldB_eq]
  split
  next => rfl
  next =>
    have hdigit : ∀ k < 3, (s.storeBytes s.i.toNat (bcdDigits (s.reg x))).byteAt (s.i.toNat + k) =
        (bcdDigits (s.reg x)).getD k 0 := fun k hk => s.byteAt_storeBytes_add _ hk
    obtain ⟨hhundreds, htens, hones⟩ := bcdDigits_toNat (s.reg x)
    exact ⟨_, rfl, (congrArg _ (hdigit 0 (by decide))).trans hhundreds, (congrArg _ (hdigit 1 (by decide))).trans htens,
      (congrArg _ (hdigit 2 (by decide))).trans hones, memoryKeptOutside_storeBytes s _ (bcdDigits (s.reg x)),
      unchangedBut_storeBytes s _ _⟩

/-- Settles O30, by the test of the instruction's equation. -/
theorem storeRegistersThroughX : Obligations.StoreRegistersThroughX := by
  refine ⟨rowDecodesTo_of_fields (and_F0FF_iff · 0xF 0x55) fun _ => and_iff_left rfl, fun x s => ?_⟩
  rw [exec_storeRegs_eq]
  split
  next => rfl
  next =>
    have hlength := s.length_regsThrough x
    refine ⟨_, rfl, fun k hk => ?_, hlength ▸ memoryKeptOutside_storeBytes s _ _, unchangedBut_storeBytes s _ _⟩
    rw [State.byteAt_storeBytes_add s _ (by rw [Fin.le_def] at hk; omega), State.getD_regsThrough s x k.val hk]

/-- Settles O31, by the test of the instruction's equation. -/
theorem loadRegistersThroughX : Obligations.LoadRegistersThroughX := by
  refine ⟨rowDecodesTo_of_fields (and_F0FF_iff · 0xF 0x65) fun _ => and_iff_left rfl, fun x s => ?_⟩
  rw [exec_loadRegs_eq]
  split
  next => rfl
  next =>
    refine ⟨_, rfl, fun k hk => ?_, fun k hk => ?_, unchangedBut_setRegsFrom_loadBytes s _ x⟩
    · rw [Fin.le_def] at hk
      rw [State.reg_setRegsFrom, State.length_loadBytes, if_pos (by omega), Nat.sub_zero,
        State.getD_loadBytes s _ _ _ (by omega)]
    · rw [Fin.lt_def] at hk
      rw [State.reg_setRegsFrom, State.length_loadBytes, if_neg (by omega)]

/-- A fetch after a change that keeps `pc` reads the two bytes there as the change left them. -/
theorem exists_fetch_of_pc_eq {s t : State} (hpc : t.pc = s.pc) (hfits : s.pc.toNat ≤ 0xFFE) {good : Nat × Byte → Prop}
    (hgood : ∀ a, good (a, t.byteAt a)) :
    ∃ hi lo, t.fetch = .ok (hi ++ lo) ∧ ∀ cell ∈ [(s.pc.toNat, hi), (s.pc.toNat + 1, lo)], good cell := by
  rw [← hpc] at hfits ⊢
  exact ⟨_, _, State.fetch_ok hfits, by simpa using ⟨hgood _, hgood _⟩⟩

/-- Settles O32: what a completed store leaves in memory is O30's and O29's, and the fetch reads it from there. -/
theorem fetchSeesTheStore : Obligations.FetchSeesTheStore := by
  intro x s t hpc
  refine ⟨fun hexec => ?_, fun hexec => ?_⟩
  · have hspec := storeRegistersThroughX.2 x s
    split at hspec
    next => cases hexec.symm.trans hspec
    next =>
      obtain ⟨t', hexec', hstored, hkept, -, -, hpc', -⟩ := hspec
      cases hexec.symm.trans hexec'
      exact exists_fetch_of_pc_eq (hpc' nofun) hpc fun a =>
        ⟨fun k hk ha => (congrArg t.byteAt ha).trans (hstored k hk), fun ha => hkept a (by omega)⟩
  · have hspec := storeDecimalDigits.2 x s
    split at hspec
    next => cases hexec.symm.trans hspec
    next =>
      obtain ⟨t', hexec', hhundreds, htens, hones, hkept, -, -, hpc', -⟩ := hspec
      cases hexec.symm.trans hexec'
      have hdigit : ∀ {a b}, a = b → (t.byteAt a).toNat = (t.byteAt b).toNat := fun ha => by rw [ha]
      exact exists_fetch_of_pc_eq (hpc' nofun) hpc fun a => ⟨fun ha => (hdigit ha).trans hhundreds,
        fun ha => (hdigit ha).trans htens, fun ha => (hdigit ha).trans hones, fun ha => hkept a (by omega)⟩

end Sys2Proof.Machine
end

section
/-! Which instruction writes what (10_state.md sections 1, 3, 6 and 7): a table of the registers and parts each one may
change, the frame of the execute phase from it, and the flag register. -/

namespace Sys2Proof.Machine

/-! ### The table -/

/-- The registers an instruction may change (10_state.md section 1), as `exec_unchangedBut` says. -/
def writtenRegs : Instr → List Reg
  | .ldImm x _ | .addImm x _ | .ldReg x _ | .orReg x _ | .andReg x _ | .xorReg x _ | .rnd x _ | .ldVxDT x
  | .ldVxK x => [x]
  | .addReg x _ | .subReg x _ | .shr x _ | .subn x _ | .shl x _ => [x, 0xF]
  | .drw _ _ _ | .addI _ => [0xF]
  | .loadRegs x => (List.finRange 16).filter (fun k => decide (k ≤ x))
  | _ => []

/-- The parts beside the registers an instruction may change (10_state.md section 1), as `exec_unchangedBut` says. -/
def writtenParts : Instr → List Part
  | .call _ | .ret => [.pc, .stack]
  | .jp _ | .jpV0 _ | .seImm _ _ | .sneImm _ _ | .seReg _ _ | .sneReg _ _ | .skp _ | .sknp _ | .ldVxK _ => [.pc]
  | .ldI _ | .addI _ | .ldF _ => [.index]
  | .cls | .drw _ _ _ => [.display]
  | .ldB _ | .storeRegs _ => [.memory]
  | .ldDTVx _ => [.delay]
  | .ldSTVx _ => [.sound]
  | .rnd _ _ => [.draws]
  | _ => []

/-- A completed instruction changes what the table lists for it and nothing else. -/
theorem exec_unchangedBut {i : Instr} {s t : State} (hexec : exec i s = .next t) :
    UnchangedBut (writtenRegs i) (writtenParts i) s t := by
  cases i with
  | cls => cases hexec; exact unchangedBut_display s _
  | ret => cases hexec; exact unchangedBut_popPc s
  | jp | jpV0 => cases hexec; exact unchangedBut_setPc s _
  | call nnn =>
    obtain ⟨-, rfl⟩ := next_of_exec_call hexec
    exact unchangedBut_call s _ _
  | seImm | sneImm | seReg | sneReg | skp | sknp => cases hexec; exact unchangedBut_skipIf s _
  | ldImm | addImm | ldReg | orReg | andReg | xorReg | ldVxDT => cases hexec; exact unchangedBut_setReg s _ _
  | addReg | subReg | shr | subn | shl => cases hexec; exact unchangedBut_setRegFlag s _ _ _
  | ldI | ldF => cases hexec; exact unchangedBut_setIndex s _
  | rnd => cases hexec; exact (unchangedBut_drawByte s).trans (unchangedBut_setReg _ _ _)
  | drw x y n =>
    obtain ⟨-, rfl⟩ := next_of_exec_drw hexec
    exact unchangedBut_afterDraw s _ _ _
  | ldVxK x =>
    obtain ⟨-, rfl⟩ | ⟨k, -, rfl⟩ := next_of_exec_ldVxK hexec
    · exact (unchangedBut_setPc s _).mono (List.nil_subset _) (List.Subset.refl _)
    · exact (unchangedBut_setReg s x _).mono (List.Subset.refl _) (List.nil_subset _)
  | ldDTVx => cases hexec; exact unchangedBut_delay s _
  | ldSTVx => cases hexec; exact unchangedBut_sound s _
  | addI => cases hexec; exact (unchangedBut_setIndex s _).trans (unchangedBut_setFlag _ _)
  | ldB x =>
    obtain ⟨-, rfl⟩ := next_of_exec_ldB hexec
    exact unchangedBut_storeBytes s _ _
  | storeRegs x =>
    obtain ⟨-, rfl⟩ := next_of_exec_storeRegs hexec
    exact unchangedBut_storeBytes s _ _
  | loadRegs x =>
    obtain ⟨-, rfl⟩ := next_of_exec_loadRegs hexec
    exact unchangedBut_setRegsFrom_loadBytes s _ x

/-- `Fx65` may change `V0` to `Vx`. -/
theorem mem_writtenRegs_loadRegs (x r : Reg) : r ∈ writtenRegs (.loadRegs x) ↔ r ≤ x := by
  simp [writtenRegs]

/-! ### The flag register -/

theorem State.reg_setFlag_zero_or_one (s : State) (c : Bool) :
    (s.setFlag c).reg 0xF = 0 ∨ (s.setFlag c).reg 0xF = 1 := by
  rw [State.reg_setFlag, if_pos rfl]
  cases c with
  | false => exact .inl rfl
  | true => exact .inr rfl

/-! ### The obligations -/

/-- Settles O53: each clause reads one column of the table. -/
theorem eachPartHasItsWriters : Obligations.EachPartHasItsWriters := by
  intro i s t hexec
  obtain ⟨hreg, hi, hpc, hstack, hdt, hst, hfb, hkey, hmem, hdraws, hparams, hschedule, hloadable⟩ :=
    exec_unchangedBut hexec
  refine ⟨?_, hkey ?_, hparams, hschedule, hloadable, ?_, ?_, ?_, ?_, ?_, ?_, ?_, ?_⟩
  · cases i with
    | ldImm | addImm | ldReg | orReg | andReg | xorReg | rnd | ldVxDT | ldVxK =>
      exact fun r hr => hreg r (mt List.mem_singleton.mp hr)
    | addReg | subReg | shr | subn | shl =>
      exact fun r hx hf => hreg r (List.not_mem_cons_of_ne_of_not_mem hx (mt List.mem_singleton.mp hf))
    | drw | addI => exact fun r hr => hreg r (mt List.mem_singleton.mp hr)
    | loadRegs x => exact fun r hr => hreg r (mt (mem_writtenRegs_loadRegs x r).mp (not_le.mpr hr))
    | _ => exact fun r => hreg r List.not_mem_nil
  · cases i <;> exact nofun
  · cases i with | call | ret => trivial | _ => exact hstack nofun
  · cases i with | ldI | addI | ldF => trivial | _ => exact hi nofun
  · cases i with | cls | drw => trivial | _ => exact hfb nofun
  · cases i with | ldB | storeRegs => trivial | _ => exact hmem nofun
  · cases i with | ldDTVx => trivial | _ => exact hdt nofun
  · cases i with | ldSTVx => trivial | _ => exact hst nofun
  · cases i with | rnd => trivial | _ => exact hdraws nofun
  · cases i with
    | jp | call | ret | jpV0 | seImm | sneImm | seReg | sneReg | skp | sknp | ldVxK => trivial
    | _ => exact hpc nofun

/-- Settles O54: an instruction with a flag writes it last, and no other one lists `VF` but as its destination. -/
theorem flagRegisterDiscipline : Obligations.FlagRegisterDiscipline := by
  intro i s t hexec
  obtain ⟨hreg, -⟩ := exec_unchangedBut hexec
  cases i with
  | addReg | subReg | shr | subn | shl | addI => cases hexec; exact State.reg_setFlag_zero_or_one _ _
  | drw x y n =>
    obtain ⟨-, rfl⟩ := next_of_exec_drw hexec
    exact State.reg_setFlag_zero_or_one _ _
  | ldImm | addImm | ldReg | orReg | andReg | xorReg | rnd | ldVxDT | ldVxK =>
    exact fun hx => hreg 0xF (mt List.mem_singleton.mp hx.symm)
  | loadRegs x =>
    have hlast : ∀ x : Reg, x ≠ 0xF → ¬ 0xF ≤ x := by decide
    exact fun hx => hreg 0xF (mt (mem_writtenRegs_loadRegs x 0xF).mp (hlast x hx))
  | _ => exact hreg 0xF List.not_mem_nil

end Sys2Proof.Machine
end

section
/-! The load port (70_reset_and_hazards.md section 2): what it stores, and when it is closed. With it the state that
reset leaves (section 1). -/

namespace Sys2Proof.Machine

/-- No step opens the load port again (70_reset_and_hazards.md R174). -/
theorem cycle_loadable {s t : State} (hcycle : cycle s = .next t) : t.loadable = s.loadable := by
  rcases cycle_cases s with ⟨-, hfault⟩ | ⟨-, w, -, ⟨i, -, hexec⟩ | ⟨-, hnop⟩⟩
  · cases hfault.symm.trans hcycle
  · obtain ⟨-, -, -, -, hloadable, -⟩ := eachPartHasItsWriters i s.advance t (hexec.symm.trans hcycle)
    exact hloadable
  · cases hnop.symm.trans hcycle
    rfl

theorem loadPort_of_closed {s : State} (hclosed : s.loadable = false) (image : List Byte) :
    loadPort image s = .refused .loadPortClosed := if_pos hclosed

/-- Settles O51: a load and the begin of a step close the port, and no cycle opens it. -/
theorem loadOnlyOnceAndOnlyIfItFits : Obligations.LoadOnlyOnceAndOnlyIfItFits := by
  refine fun s t image other => ⟨fun hopen hlong => ?_, fun hload => ?_, fun hstep => ?_⟩
  · have hlong' : Config.progMax < image.length := hlong
    rw [loadPort, if_neg (by simp [hopen]), if_pos hlong', raise]
  · obtain ⟨-, -, rfl⟩ := loadPort_eq_next hload
    exact loadPort_of_closed (s.withImage_loadable image) other
  · exact loadPort_of_closed ((cycle_loadable hstep).trans s.beginStep_loadable) other

/-- Settles O49: the image's bytes stand where the port stores them, and the store touches nothing else. -/
theorem loadCopiesImage : Obligations.LoadCopiesImage := by
  intro s image hopen hfits
  have hstored : ∀ a, (s.withImage image).byteAt a = (s.storeBytes Config.progBase image).byteAt a :=
    State.byteAt_congr rfl rfl
  have hreopened : { s.withImage image with loadable := s.loadable } = s.storeBytes Config.progBase image := by
    rw [State.withImage, ← s.storeBytes_loadable Config.progBase image]
  refine ⟨s.withImage image, loadPort_of_fits hopen hfits, fun k hk => s.byteAt_withImage hk, fun a ha => ?_, rfl, ?_⟩
  · rw [hstored]
    exact memoryKeptOutside_storeBytes s Config.progBase image a ha
  · rw [hreopened]
    exact unchangedBut_storeBytes s _ _

/-- Settles O47: reset memory lists no cell, so it reads as at power-on, and the framebuffer is blank. -/
theorem resetState : Obligations.ResetState := by
  refine ⟨rfl, fun p => ⟨rfl, rfl, State.reg_resetWith p, rfl, rfl, rfl, rfl, rfl, fun r c => ?_, rfl, fun a => ?_⟩⟩
  · rw [framebufferPort, State.fb_resetWith, Framebuffer.cell_blank]
  · rw [State.byteAt_resetWith, background_eq_getElem?]

end Sys2Proof.Machine
end

section
/-! Status, faults and fixed points of the cycle (60_exceptions.md sections 4, 5 and 7, 70_reset_and_hazards.md R183):
what a cycle reports, and that a fault depends on nothing that can change between two steps. -/

namespace Sys2Proof.Machine

/-! ### What a cycle reports (60_exceptions.md R159) -/

theorem cycleStatus_of_fault {s : State} {f : Fault} (hcycle : cycle s = .fault f) :
    cycleStatus s = some (faultStatus f) := by
  rcases cycle_cases s with ⟨hpast, hfault⟩ | ⟨-, w, hfetch, ⟨i, hdecode, hexec⟩ | ⟨-, hnop⟩⟩
  · cases hfault.symm.trans hcycle
    simp only [cycleStatus, State.fetch_error hpast]
  · rw [cycleStatus_of_decode hfetch hdecode, ← hexec, hcycle, outcomeStatus]
  · cases hnop.symm.trans hcycle

/-- A cycle that ends in a next state reports what its word is, and of an instruction how it completed. -/
theorem cycleStatus_of_next {s t : State} {w : Word} (hcycle : cycle s = .next t) (hfetch : s.fetch = .ok w) :
    cycleStatus s = some (match decode w with
      | .error _ => .unrecognized w
      | .ok i => completionStatus i s.advance) := by
  cases hdecode : decode w with
  | error e => simp only [cycleStatus, hfetch, hdecode]
  | ok i =>
    rw [cycleStatus_of_decode hfetch hdecode, ← cycle_of_decode hfetch hdecode, hcycle, outcomeStatus]

/-- A cycle that ends in a next state has fetched a word. -/
theorem fetch_of_cycle_next {s t : State} (hcycle : cycle s = .next t) : ∃ w, s.fetch = .ok w := by
  rcases cycle_cases s with ⟨-, hfault⟩ | ⟨-, w, hfetch, -⟩
  · cases hfault.symm.trans hcycle
  · exact ⟨w, hfetch⟩

/-- Settles O8: a cycle ends in a fault or in a next state, and each reports its status. -/
theorem statusOfEachCycle : Obligations.StatusOfEachCycle := by
  refine ⟨fun s => ⟨?_, fun f => cycleStatus_of_fault, fun t w hcycle hfetch => ?_⟩,
    fun _ => ⟨rfl, rfl⟩, fun _ => ⟨rfl, rfl⟩, fun _ => ⟨rfl, rfl⟩⟩
  · rcases cycle_next_or_fault s with ⟨t, hcycle⟩ | ⟨f, hcycle⟩
    · obtain ⟨w, hfetch⟩ := fetch_of_cycle_next hcycle
      exact ⟨_, cycleStatus_of_next hcycle hfetch⟩
    · exact ⟨_, cycleStatus_of_fault hcycle⟩
  · rw [cycleStatus_of_next hcycle hfetch]
    cases decode w with
    | error e => rfl
    | ok i => cases i <;> rfl

/-- Settles O7: nothing that lands before the step moves `pc`, and the first address past the end is `pc` itself unless
`pc` is the last address (20_memory.md R37). -/
theorem fetchPastEndFaults : Obligations.FetchPastEndFaults := by
  intro s hpast
  rcases cycle_cases s.beginStep with ⟨-, hfault⟩ | ⟨hfits, -⟩
  · rw [step_eq, hfault, State.beginStep_pc]
    congr 2
    split <;> omega
  · rw [State.beginStep_pc] at hfits
    omega

/-! ### A jump to itself (70_reset_and_hazards.md R183) -/

/-- A `pc` of 12 bits as the operand of a jump keeps its value. -/
theorem toNat_setWidth_pc {pc : Word} (hpc : pc.toNat ≤ 0xFFE) : (pc.setWidth 12).toNat = pc.toNat := by
  rw [BitVec.toNat_setWidth]
  exact Nat.mod_eq_of_lt (by omega)

/-- The word `0x1000 + pc` is the jump to `pc`. -/
theorem encode_jp_self {pc : Word} (hpc : pc.toNat ≤ 0xFFE) : encode (.jp (pc.setWidth 12)) = 0x1000 + pc := by
  have hsum : (0x1000 + pc).toNat = (0x1000 + pc.toNat) % 65536 := BitVec.toNat_add 0x1000 pc
  have hformat : (encode (.jp (pc.setWidth 12))).toNat = 1 * 4096 + (pc.setWidth 12).toNat := formatA_toNat _ _
  rw [toNat_setWidth_pc hpc] at hformat
  exact BitVec.eq_of_toNat_eq (by omega)

/-- Settles O52: the cycle advances `pc` and the jump puts it back. -/
theorem terminalIsFixedPoint : Obligations.TerminalIsFixedPoint := by
  intro s hterminal
  simp only [terminal, Bool.and_eq_true, decide_eq_true_eq, beq_iff_eq] at hterminal
  obtain ⟨hpc, hword⟩ := hterminal
  have haddr : addrWord (s.pc.setWidth 12) = s.pc :=
    BitVec.eq_of_toNat_eq ((addrWord_toNat _).trans (toNat_setWidth_pc hpc))
  have hfetch : s.fetch = .ok (0x1000 + s.pc) := hword ▸ State.fetch_ok hpc
  have hdecode := (decode_ok_iff_encode_eq _ _).mpr (encode_jp_self hpc)
  have hcycle : cycle s = .next s := by
    rw [cycle_of_decode hfetch hdecode]
    exact congrArg (fun w => Host.Outcome.next (s.advance.setPc w)) haddr
  refine ⟨hcycle, ?_⟩
  rw [cycleStatus_of_next hcycle hfetch, hdecode]
  rfl

/-! ### What a fault depends on -/

/-- Whether and how an instruction faults is read from the registers, `I`, the stack and the parameters only. -/
theorem exec_fault_congr {i : Instr} {s s' : State} {f : Fault} (hv : s'.v = s.v) (hi : s'.i = s.i)
    (hstack : s'.stack = s.stack) (hparams : s'.params = s.params) (hexec : exec i s = .fault f) :
    exec i s' = .fault f := by
  rw [faultsAreTheListed] at hexec ⊢
  simpa only [State.reg_congr hv, hi, hstack, hparams] using hexec

theorem State.fetch_congr {s s' : State} (hpc : s'.pc = s.pc) (hmem : s'.mem = s.mem) (hparams : s'.params = s.params) :
    s'.fetch = s.fetch := by
  simp only [State.fetch, hpc, State.byteAt_congr hmem hparams]

/-- Whether and how a cycle faults is read from these, from `pc` and from memory only. -/
theorem cycle_fault_congr {s s' : State} {f : Fault} (hv : s'.v = s.v) (hi : s'.i = s.i) (hpc : s'.pc = s.pc)
    (hstack : s'.stack = s.stack) (hmem : s'.mem = s.mem) (hparams : s'.params = s.params)
    (hcycle : cycle s = .fault f) : cycle s' = .fault f := by
  have hfetch' := State.fetch_congr hpc hmem hparams
  rcases cycle_cases s with ⟨hpast, hfault⟩ | ⟨-, w, hfetch, ⟨i, hdecode, hexec⟩ | ⟨-, hnop⟩⟩
  · rw [State.fetch_error hpast] at hfetch'
    rw [cycle, hfetch', guarded_error, ← hfault, hcycle]
  · rw [cycle_of_decode (hfetch'.trans hfetch) hdecode]
    have hadvance : s'.advance.v = s.advance.v := hv
    exact exec_fault_congr hadvance hi hstack hparams (hexec.symm.trans hcycle)
  · cases hnop.symm.trans hcycle

/-! ### A faulted request (60_exceptions.md R156, R157) -/

theorem request_of_fault {s : State} {f : Fault} (hstep : step s = .fault f) :
    request s = (s.beginStep, some (faultStatus f)) := by
  rw [← cycleStatus_of_fault hstep, request, hstep]

/-- No event reads or writes the load port's flag. -/
theorem deliver_with_loadable (s : State) (events : List Event) (c : Bool) :
    deliver { s with loadable := c } events = { deliver s events with loadable := c } := by
  induction events generalizing s with
  | nil => rfl
  | cons e rest ih =>
    have happly : Event.apply { s with loadable := c } e = { Event.apply s e with loadable := c } := by
      cases e <;> rfl
    rw [deliver, happly, ih, deliver]

/-- Settles O45: a faulted request answers the state at which its cycle began. -/
theorem faultIsPrecise : Obligations.FaultIsPrecise := by
  intro s f hstep
  rw [request_of_fault hstep, State.beginStep_eq]
  exact ⟨rfl, deliver_with_loadable { s with schedule := s.schedule.tail } (s.schedule.headD []) false⟩

/-- Settles O46: what lands after the fault and before the next step changes nothing that the fault depends on. -/
theorem faultRepeats : Obligations.FaultRepeats := by
  intro s f events later hstep
  rw [request_of_fault hstep, step_eq]
  refine cycle_fault_congr ?_ ?_ ?_ ?_ ?_ ?_ hstep <;> simp

/-! ### `ST` and `KEY` (44_keypad_timers.md section 2, 10_state.md R18, R20) -/

/-- The state with another `ST` and another `KEY`. -/
def State.withPorts (s : State) (b : Byte) (k : Option Key) : State := { s with st := b, key := k }

section
variable (s : State) (b : Byte) (k : Option Key)

theorem State.skipIf_withPorts (c : Bool) : (s.withPorts b k).skipIf c = (s.skipIf c).withPorts b k := by
  cases c <;> rfl

theorem State.popPc_withPorts : (s.withPorts b k).popPc = s.popPc.withPorts b k := by
  obtain ⟨v, i, pc, stack, dt, st, fb, key, mem, params, draws, schedule, loadable⟩ := s
  cases stack <;> rfl

theorem State.storeBytes_withPorts (a : Nat) (bytes : List Byte) :
    (s.withPorts b k).storeBytes a bytes = (s.storeBytes a bytes).withPorts b k := by
  induction bytes generalizing s a with
  | nil => rfl
  | cons byte rest ih => exact ih (s.storeByte a byte) (a + 1)

theorem State.setRegsFrom_withPorts (j : Nat) (bytes : List Byte) :
    (s.withPorts b k).setRegsFrom j bytes = (s.setRegsFrom j bytes).withPorts b k := by
  induction bytes generalizing s j with
  | nil => rfl
  | cons byte rest ih =>
    simp only [State.setRegsFrom]
    split
    next h => exact ih (s.setReg ⟨j, h⟩ byte) (j + 1)
    next => exact ih s (j + 1)

theorem State.loadBytes_withPorts (a count : Nat) : (s.withPorts b k).loadBytes a count = s.loadBytes a count := by
  induction count generalizing a with
  | zero => rfl
  | succ count ih => rw [State.loadBytes, ih, State.loadBytes]; rfl

theorem State.afterDraw_withPorts (x0 y0 rows : Nat) :
    (s.withPorts b k).afterDraw x0 y0 rows = (s.afterDraw x0 y0 rows).withPorts b k := by
  simp only [State.afterDraw, State.blitRows, State.loadBytes_withPorts]
  rfl

end

/-- Whether an instruction reads `KEY` (10_state.md R20). -/
def ReadsKey : Instr → Prop
  | .skp _ | .sknp _ | .ldVxK _ => True
  | _ => False

/-- An instruction that does not write `ST` carries another `ST` along, and another `KEY` if it does not read it. -/
theorem exec_withPorts {i : Instr} {s t : State} {b : Byte} {k : Option Key} (hst : ∀ x, i ≠ .ldSTVx x)
    (hkey : ReadsKey i → k = s.key) (hexec : exec i s = .next t) :
    exec i (s.withPorts b k) = .next (t.withPorts b k) := by
  cases i with
  | ldSTVx x => exact absurd rfl (hst x)
  | ret => cases hexec; exact congrArg _ (s.popPc_withPorts b k)
  | seImm | sneImm | seReg | sneReg => cases hexec; exact congrArg _ (s.skipIf_withPorts b k _)
  | skp | sknp => cases hexec; rw [hkey trivial]; exact congrArg _ (s.skipIf_withPorts b s.key _)
  | ldVxK x =>
    obtain ⟨hlatch, rfl⟩ | ⟨key, hlatch, rfl⟩ := next_of_exec_ldVxK hexec
    · exact exec_ldVxK_of_none (s := s.withPorts b k) x ((hkey trivial).trans hlatch)
    · exact exec_ldVxK_of_some (s := s.withPorts b k) x ((hkey trivial).trans hlatch)
  | call nnn =>
    obtain ⟨hroom, rfl⟩ := next_of_exec_call hexec
    exact (exec_call_eq nnn (s.withPorts b k)).trans (if_neg hroom)
  | ldB x =>
    obtain ⟨hfits, rfl⟩ := next_of_exec_ldB hexec
    rw [← State.storeBytes_withPorts]
    exact (exec_ldB_eq x (s.withPorts b k)).trans (if_neg hfits)
  | storeRegs x =>
    obtain ⟨hfits, rfl⟩ := next_of_exec_storeRegs hexec
    rw [← State.storeBytes_withPorts]
    exact (exec_storeRegs_eq x (s.withPorts b k)).trans (if_neg hfits)
  | loadRegs x =>
    obtain ⟨hfits, rfl⟩ := next_of_exec_loadRegs hexec
    rw [← State.setRegsFrom_withPorts, ← s.loadBytes_withPorts b k]
    exact (exec_loadRegs_eq x (s.withPorts b k)).trans (if_neg hfits)
  | drw x y n =>
    obtain ⟨hfits, rfl⟩ := next_of_exec_drw hexec
    rw [← State.afterDraw_withPorts]
    exact (exec_drw_eq x y n (s.withPorts b k)).trans (if_neg hfits)
  | _ => cases hexec; rfl

/-- The states with other ports, as O55 speaks of them. -/
theorem exists_next_withPorts {r : Result} {t : State} {b : Byte} {k : Option Key}
    (hrun : r = .next (t.withPorts b k)) :
    ∃ t', r = .next t' ∧ t' = { t with st := t'.st, key := k } ∧ (t'.st = t.st ∨ t'.st = b) :=
  ⟨_, hrun, rfl, .inr rfl⟩

/-- Settles O55: a fault depends on neither `ST` nor `KEY`, and a next state carries them along. -/
theorem soundAndKeyAreNotRead : Obligations.SoundAndKeyAreNotRead := by
  rintro i s b k s' rfl
  refine ⟨fun f => exec_fault_congr rfl rfl rfl rfl, fun t hexec => ?_⟩
  cases i with
  | ldSTVx x => cases hexec; exact ⟨_, rfl, rfl, .inl rfl⟩
  | skp | sknp | ldVxK => exact exists_next_withPorts (exec_withPorts (fun _ => nofun) (fun _ => rfl) hexec)
  | _ => exact exists_next_withPorts (exec_withPorts (fun _ => nofun) nofun hexec)

end Sys2Proof.Machine
end

section
/-! Sprites (43_display.md R121 to R124): what a draw does to each cell and to `VF`, and that the same draw twice
restores the framebuffer. -/

namespace Sys2Proof.Machine

/-! ### A sprite's bits, in the words of the obligations -/

/-- A drawn pixel is a bit of the sprite row laid over its framebuffer row. -/
theorem State.spriteBitAt_eq (s : State) (x0 y0 rows r : Nat) {c : Nat} (hc : c < 64) :
    s.spriteBitAt x0 y0 rows r c =
      (decide (y0 ≤ r ∧ r < y0 + rows) && (spriteRow x0 (s.byteAt (s.i.toNat + (r - y0)))).getMsbD c) := by
  rw [State.spriteBitAt, spriteRow_getMsbD _ _ _ hc]
  simp only [Bool.decide_and, Bool.and_assoc]

theorem State.spriteBitAt_congr {s t : State} (hi : t.i = s.i) (hmem : ∀ a, t.byteAt a = s.byteAt a)
    (x0 y0 rows r c : Nat) : t.spriteBitAt x0 y0 rows r c = s.spriteBitAt x0 y0 rows r c := by
  rw [State.spriteBitAt, hi, hmem, State.spriteBitAt]

/-- Every cell is flipped exactly when a drawn pixel of bit 1 targets it (R121). -/
theorem State.cell_blitRows (s : State) (x0 y0 rows : Nat) {r c : Nat} (hr : r < 32) (hc : c < 64) :
    (s.blitRows x0 y0 rows).1.cell r c = (s.fb.cell r c != s.spriteBitAt x0 y0 rows r c) := by
  rw [State.spriteBitAt_eq s x0 y0 rows r hc, State.blitRows, Framebuffer.cell, row_blit _ _ _ _ _ hr,
    State.length_loadBytes]
  split
  next hdrawn =>
    rw [State.getD_loadBytes s _ _ _ (by omega), BitVec.getMsbD_xor, decide_eq_true hdrawn, Bool.true_and]
    rfl
  next hdrawn =>
    rw [decide_eq_false hdrawn, Bool.false_and, Bool.bne_false, Framebuffer.cell]

/-- A draw collides exactly when a drawn pixel of bit 1 targets a lit cell (R124). -/
theorem State.hit_blitRows (s : State) (x0 : Nat) {y0 rows : Nat} (hclipped : y0 + rows ≤ 32) :
    (s.blitRows x0 y0 rows).2 = true ↔
      ∃ r c, r < 32 ∧ c < 64 ∧ s.spriteBitAt x0 y0 rows r c = true ∧ s.fb.cell r c = true := by
  rw [State.blitRows, hit_blit _ _ _ _ (by rwa [State.length_loadBytes]), State.length_loadBytes]
  simp only [and_ne_zero_iff]
  constructor
  · rintro ⟨j, hj, c, hc, hlit, hbit⟩
    refine ⟨y0 + j, c, by omega, hc, ?_, hlit⟩
    rw [State.getD_loadBytes s _ _ _ hj] at hbit
    rw [State.spriteBitAt_eq s _ _ _ _ hc, Nat.add_sub_cancel_left, hbit, decide_eq_true (by omega), Bool.true_and]
  · rintro ⟨r, c, -, hc, hbit, hlit⟩
    rw [State.spriteBitAt_eq s _ _ _ _ hc, Bool.and_eq_true, decide_eq_true_eq] at hbit
    obtain ⟨⟨hlow, hhigh⟩, hbit⟩ := hbit
    refine ⟨r - y0, by omega, c, hc, ?_, ?_⟩
    · rwa [Nat.add_sub_cancel' hlow]
    · rwa [State.getD_loadBytes s _ _ _ (by omega)]

/-- The rows to be drawn end at the last row of the framebuffer (R123). -/
theorem originRow_add_drawnRows_le (n : Nibble) (vy : Byte) : originRow vy + drawnRows n vy ≤ 32 := by
  have horigin : originRow vy < 32 := Nat.mod_lt _ (by decide)
  have hclip : drawnRows n vy ≤ 32 - originRow vy := Nat.min_le_right _ _
  omega

theorem State.reg_afterDraw_flag (s : State) (x0 y0 rows : Nat) :
    (s.afterDraw x0 y0 rows).reg 0xF = if (s.blitRows x0 y0 rows).2 then 1 else 0 :=
  (State.reg_setFlag _ _ 0xF).trans (if_pos rfl)

/-! ### The obligations -/

/-- Settles O34, by the test of the draw's equation. -/
theorem drawXorsClippedSprite : Obligations.DrawXorsClippedSprite := by
  refine ⟨rowDecodesTo_of_fields (and_F000_iff · 0xD) fun _ => and_iff_left ⟨rfl, rfl, rfl⟩, ?_⟩
  intro x y n s x0 y0 rows hx0 hy0 hrows
  obtain rfl : x0 = originColumn (s.reg x) := hx0
  obtain rfl : y0 = originRow (s.reg y) := hy0
  obtain rfl : rows = drawnRows n (s.reg y) := hrows
  have hhit := s.hit_blitRows (originColumn (s.reg x)) (originRow_add_drawnRows_le n (s.reg y))
  rw [exec_drw_eq]
  split
  next => rfl
  next =>
    refine ⟨_, rfl, fun r c => s.cell_blitRows _ _ _, fun hlit => ?_, fun hdark => ?_, unchangedBut_afterDraw s _ _ _⟩
    · rw [State.reg_afterDraw_flag, if_pos (hhit.mpr hlit)]
    · rw [State.reg_afterDraw_flag, if_neg]
      intro h
      obtain ⟨r, c, hr, hc, hbit, hlit⟩ := hhit.mp h
      cases hlit.symm.trans (hdark r c hr hc hbit)

/-- Two framebuffers that differ do so in a cell. -/
theorem Framebuffer.exists_cell_ne {fb fb' : Framebuffer} (hne : fb ≠ fb') :
    ∃ r c, r < 32 ∧ c < 64 ∧ fb.cell r c ≠ fb'.cell r c := by
  by_contra hall
  push Not at hall
  exact hne (Framebuffer.ext_cells hall)

/-- Settles O35: the second draw reads the same sprite and flips the same cells back, and over a clear framebuffer the
first has lit every cell that it flipped. -/
theorem drawTwiceRestores : Obligations.DrawTwiceRestores := by
  intro x y n s t hexec hx hy
  have hfirst := drawXorsClippedSprite.2 x y n s _ _ _ rfl rfl rfl
  have hsecond := drawXorsClippedSprite.2 x y n t _ _ _ rfl rfl rfl
  split at hfirst
  next => cases hexec.symm.trans hfirst
  next hfits =>
    obtain ⟨t', hexec', hcells, -, -, -, hi, -, -, -, -, -, -, hmem, -⟩ := hfirst
    cases hexec.symm.trans hexec'
    rw [hx, hy, hi nofun, if_neg hfits] at hsecond
    obtain ⟨u, hexecU, hcellsU, hhitU, -⟩ := hsecond
    have hsprite := State.spriteBitAt_congr (hi nofun) (hmem nofun)
    refine ⟨u, hexecU, Framebuffer.ext_cells fun r c hr hc => ?_, fun hblank hdrawn => hhitU ?_⟩
    · rw [hcellsU r c hr hc, hcells r c hr hc, hsprite]
      exact Bool.bne_self_right _ _
    · obtain ⟨r, c, hr, hc, hne⟩ := Framebuffer.exists_cell_ne hdrawn
      have hcell := hcells r c hr hc
      rw [hblank, Framebuffer.cell_blank, Bool.false_bne] at hcell
      have hlit : t.fb.cell r c = true := by
        rwa [hblank, Framebuffer.cell_blank, ne_eq, Bool.not_eq_false] at hne
      exact ⟨r, c, hr, hc, (hsprite ..).trans (hcell.symm.trans hlit), hlit⟩

end Sys2Proof.Machine
end
